-- ==== Sys2Proof/Word.lean ====
section
/-! DEFINITION. The word types of the block (00_scope.md R7, R14): every register, cell and encoded field is an unsigned
value of a stated width, so each is the bit vector of that width. -/

namespace Sys2Proof

/-- An 8-bit value: a general register, a memory cell, a timer, an immediate NN (R14). -/
abbrev Byte := BitVec 8

/-- A 16-bit value: I, PC, a stack entry, an instruction word (R7, R14). -/
abbrev Word := BitVec 16

/-- A 4-bit value: a register index X or Y, a height N, a key number 0..15 (R81, R10). -/
abbrev Nibble := BitVec 4

/-- A 12-bit address field NNN (R81). -/
abbrev Addr := BitVec 12

end Sys2Proof
end

