-- ==== Sys2Proof/Syntax.lean ====
section
/-! DEFINITION. The 34 instructions (30_encoding.md R84, R85, R88): one constructor per row of the opcode table, named after
the conventional mnemonic of R89. Each operand has exactly the width of its field, so every term is an instruction the
encoding can express. -/

namespace Sys2Proof

/-- An instruction with its operand fields (R81): `x`, `y` register indices, `n` a height, `nn` a byte, `nnn` an address. -/
inductive Instr where
  /-- 00E0 (R120) -/
  | cls
  /-- 00EE (R140) -/
  | ret
  /-- 1NNN (R141) -/
  | jp (nnn : Addr)
  /-- 2NNN (R142) -/
  | call (nnn : Addr)
  /-- 3XNN (R144) -/
  | seImm (x : Nibble) (nn : Byte)
  /-- 4XNN (R145) -/
  | sneImm (x : Nibble) (nn : Byte)
  /-- 5XY0 (R146) -/
  | seReg (x y : Nibble)
  /-- 6XNN (R161) -/
  | ldImm (x : Nibble) (nn : Byte)
  /-- 7XNN (R162) -/
  | addImm (x : Nibble) (nn : Byte)
  /-- 8XY0 (R163) -/
  | ldReg (x y : Nibble)
  /-- 8XY1 (R164) -/
  | orReg (x y : Nibble)
  /-- 8XY2 (R165) -/
  | andReg (x y : Nibble)
  /-- 8XY3 (R166) -/
  | xorReg (x y : Nibble)
  /-- 8XY4 (R167) -/
  | addReg (x y : Nibble)
  /-- 8XY5 (R168) -/
  | subReg (x y : Nibble)
  /-- 8XY6 (R169); `y` is decoded and ignored (R87) -/
  | shr (x y : Nibble)
  /-- 8XY7 (R170) -/
  | subn (x y : Nibble)
  /-- 8XYE (R171); `y` is decoded and ignored (R87) -/
  | shl (x y : Nibble)
  /-- 9XY0 (R147) -/
  | sneReg (x y : Nibble)
  /-- ANNN (R190) -/
  | ldI (nnn : Addr)
  /-- BNNN (R143) -/
  | jpV0 (nnn : Addr)
  /-- CXNN (R172) -/
  | rnd (x : Nibble) (nn : Byte)
  /-- DXYN (R121) -/
  | drw (x y n : Nibble)
  /-- EX9E (R210) -/
  | skp (x : Nibble)
  /-- EXA1 (R211) -/
  | sknp (x : Nibble)
  /-- FX07 (R213) -/
  | ldFromDelay (x : Nibble)
  /-- FX0A (R214) -/
  | ldKey (x : Nibble)
  /-- FX15 (R215) -/
  | ldDelay (x : Nibble)
  /-- FX18 (R216) -/
  | ldSound (x : Nibble)
  /-- FX1E (R191) -/
  | addI (x : Nibble)
  /-- FX29 (R192) -/
  | ldGlyph (x : Nibble)
  /-- FX33 (R193) -/
  | ldBcd (x : Nibble)
  /-- FX55 (R194) -/
  | storeRegs (x : Nibble)
  /-- FX65 (R195) -/
  | loadRegs (x : Nibble)
deriving DecidableEq, Repr

end Sys2Proof
end

