-- ==== Sys2Proof/Decode.lean ====
section
/-! DEFINITION. Decoding and encoding (30_encoding.md R80 to R88): fields, the opcode map of R85, the words of an
instruction. Decoding is total: a word is one of the 34 instructions, or it is rejected as an unknown opcode. -/

namespace Sys2Proof

/-! ### Fields (R81, R82) -/

/-- o = w[15:12], the primary group. -/
def fieldO (w : Word) : Nibble := w.extractLsb' 12 4

/-- x = w[11:8]; one rule for every instruction, FX1E included (R82). -/
def fieldX (w : Word) : Nibble := w.extractLsb' 8 4

/-- y = w[7:4]. -/
def fieldY (w : Word) : Nibble := w.extractLsb' 4 4

/-- n = w[3:0]. -/
def fieldN (w : Word) : Nibble := w.extractLsb' 0 4

/-- nn = w[7:0]. -/
def fieldNN (w : Word) : Byte := w.extractLsb' 0 8

/-- nnn = w[11:0]. -/
def fieldNNN (w : Word) : Addr := w.extractLsb' 0 12

/-! ### Decoding (R85, R86) -/

/-- What decoding a word gives. -/
inductive Decoded where
  /-- one of the 34 instructions -/
  | instr (i : Instr)
  /-- R86: the word is no row's; the step raises UnknownOpcode with it -/
  | unknownOpcode (word : Word)
deriving DecidableEq, Repr

/-- Group 0: only 00E0 and 00EE. -/
def decodeGroup0 (w : Word) : Decoded :=
  if w = 0x00E0 then .instr .cls
  else if w = 0x00EE then .instr .ret
  else .unknownOpcode w

/-- Group 8, by the selector n. -/
def decodeGroup8 (w : Word) : Decoded :=
  let x := fieldX w
  let y := fieldY w
  let n := fieldN w
  if n = 0x0 then .instr (.ldReg x y)
  else if n = 0x1 then .instr (.orReg x y)
  else if n = 0x2 then .instr (.andReg x y)
  else if n = 0x3 then .instr (.xorReg x y)
  else if n = 0x4 then .instr (.addReg x y)
  else if n = 0x5 then .instr (.subReg x y)
  else if n = 0x6 then .instr (.shr x y)
  else if n = 0x7 then .instr (.subn x y)
  else if n = 0xE then .instr (.shl x y)
  else .unknownOpcode w

/-- Group E, by the selector nn. -/
def decodeGroupE (w : Word) : Decoded :=
  let x := fieldX w
  let nn := fieldNN w
  if nn = 0x9E then .instr (.skp x)
  else if nn = 0xA1 then .instr (.sknp x)
  else .unknownOpcode w

/-- Group F, by the selector nn. -/
def decodeGroupF (w : Word) : Decoded :=
  let x := fieldX w
  let nn := fieldNN w
  if nn = 0x07 then .instr (.ldFromDelay x)
  else if nn = 0x0A then .instr (.ldKey x)
  else if nn = 0x15 then .instr (.ldDelay x)
  else if nn = 0x18 then .instr (.ldSound x)
  else if nn = 0x1E then .instr (.addI x)
  else if nn = 0x29 then .instr (.ldGlyph x)
  else if nn = 0x33 then .instr (.ldBcd x)
  else if nn = 0x55 then .instr (.storeRegs x)
  else if nn = 0x65 then .instr (.loadRegs x)
  else .unknownOpcode w

/-- The opcode map of R85: the primary group, then the selector where the group is ambiguous. -/
def decode (w : Word) : Decoded :=
  let o := fieldO w
  let x := fieldX w
  let y := fieldY w
  let n := fieldN w
  let nn := fieldNN w
  let nnn := fieldNNN w
  if o = 0x0 then decodeGroup0 w
  else if o = 0x1 then .instr (.jp nnn)
  else if o = 0x2 then .instr (.call nnn)
  else if o = 0x3 then .instr (.seImm x nn)
  else if o = 0x4 then .instr (.sneImm x nn)
  else if o = 0x5 then (if n = 0x0 then .instr (.seReg x y) else .unknownOpcode w)
  else if o = 0x6 then .instr (.ldImm x nn)
  else if o = 0x7 then .instr (.addImm x nn)
  else if o = 0x8 then decodeGroup8 w
  else if o = 0x9 then (if n = 0x0 then .instr (.sneReg x y) else .unknownOpcode w)
  else if o = 0xA then .instr (.ldI nnn)
  else if o = 0xB then .instr (.jpV0 nnn)
  else if o = 0xC then .instr (.rnd x nn)
  else if o = 0xD then .instr (.drw x y n)
  else if o = 0xE then decodeGroupE w
  else decodeGroupF w

/-- The word of two bytes in fetch order, the first the more significant (R54, R80). -/
def wordOfBytes (hi lo : Byte) : Word := BitVec.ofNat 16 (hi.toNat * 256 + lo.toNat)

/-- Decoding two bytes as they lie in memory (R80: "a decoder always consumes exactly two bytes"). -/
def decodeBytes (hi lo : Byte) : Decoded := decode (wordOfBytes hi lo)

/-! ### Encoding (R84) -/

/-- Format XYN, and XY and FIXED with their fixed nibbles: four nibbles, the first most significant. -/
def packXYN (o x y n : Nibble) : Word := (o ++ x ++ y ++ n).cast rfl

/-- Format XNN, and X with its fixed selector byte. -/
def packXNN (o x : Nibble) (nn : Byte) : Word := (o ++ x ++ nn).cast rfl

/-- Format NNN. -/
def packNNN (o : Nibble) (nnn : Addr) : Word := (o ++ nnn).cast rfl

/-- The word of an instruction. -/
def encode : Instr → Word
  | .cls => 0x00E0
  | .ret => 0x00EE
  | .jp nnn => packNNN 0x1 nnn
  | .call nnn => packNNN 0x2 nnn
  | .seImm x nn => packXNN 0x3 x nn
  | .sneImm x nn => packXNN 0x4 x nn
  | .seReg x y => packXYN 0x5 x y 0x0
  | .ldImm x nn => packXNN 0x6 x nn
  | .addImm x nn => packXNN 0x7 x nn
  | .ldReg x y => packXYN 0x8 x y 0x0
  | .orReg x y => packXYN 0x8 x y 0x1
  | .andReg x y => packXYN 0x8 x y 0x2
  | .xorReg x y => packXYN 0x8 x y 0x3
  | .addReg x y => packXYN 0x8 x y 0x4
  | .subReg x y => packXYN 0x8 x y 0x5
  | .shr x y => packXYN 0x8 x y 0x6
  | .subn x y => packXYN 0x8 x y 0x7
  | .shl x y => packXYN 0x8 x y 0xE
  | .sneReg x y => packXYN 0x9 x y 0x0
  | .ldI nnn => packNNN 0xA nnn
  | .jpV0 nnn => packNNN 0xB nnn
  | .rnd x nn => packXNN 0xC x nn
  | .drw x y n => packXYN 0xD x y n
  | .skp x => packXNN 0xE x 0x9E
  | .sknp x => packXNN 0xE x 0xA1
  | .ldFromDelay x => packXNN 0xF x 0x07
  | .ldKey x => packXNN 0xF x 0x0A
  | .ldDelay x => packXNN 0xF x 0x15
  | .ldSound x => packXNN 0xF x 0x18
  | .addI x => packXNN 0xF x 0x1E
  | .ldGlyph x => packXNN 0xF x 0x29
  | .ldBcd x => packXNN 0xF x 0x33
  | .storeRegs x => packXNN 0xF x 0x55
  | .loadRegs x => packXNN 0xF x 0x65

/-! ### A word as the opcode table numbers its bits -/

/-- The more significant byte of the instruction whose table bits are `w`; bits at and above `nbits` are 0. The table gives
one 16-bit word, whose first byte in memory is its bits 15..8 (R54). -/
def tableHi (nbits w : Nat) : Byte := BitVec.ofNat 8 (w % 2 ^ nbits / 256)

/-- The less significant byte of the same instruction. -/
def tableLo (nbits w : Nat) : Byte := BitVec.ofNat 8 (w % 2 ^ nbits)

/-- The instruction this decoder reads from an instruction whose table bits are `w`; none where it rejects the word. -/
def decodeTableWord (nbits w : Nat) : Option Instr :=
  match decodeBytes (tableHi nbits w) (tableLo nbits w) with
  | .instr i => some i
  | .unknownOpcode _ => none

end Sys2Proof
end

