-- ==== Sys2Proof/Config.lean ====
section
/-! DEFINITION. What is fixed for the block (00_scope.md R6, R8, R9, R12) and its one free value (40_cycle.md R114).
The values this hardware gives the parameters of R12 stand in Machine/Params.lean; their types stand here. -/

namespace Sys2Proof.Config

/-- MEM_SIZE, the number of memory cells (R6). -/
abbrev memSize : Nat := 4096

/-- PROGRAM_BASE, where loadProgram writes and where the first fetch reads (R6, R272). -/
abbrev programBase : Nat := 0x200

/-- MAX_PROGRAM, the largest loadable program (R6, R60). -/
abbrev maxProgram : Nat := 3584

/-- GLYPH_TABLE of R12 and 20_memory.md R59: 16 glyphs of 5 bytes. -/
abbrev GlyphTable := Vector Byte 80

/-- SPRITE_EDGE_POLICY of R12 and R125: what becomes of a set sprite bit whose target is off the frame. -/
inductive EdgePolicy where
  | clip
  | wrap
  | reject
deriving DecidableEq, Repr

/-- FLAG_ORDER of R12 and R160: whether 8XY5, 8XY6, 8XY7 and 8XYE write VF before or after V[X]. -/
inductive FlagOrder where
  | asListed
  | flagLast
deriving DecidableEq, Repr

/-- The random byte of CXNN, a FREE VALUE (R114, decision D12, U4): "a draw under no law". It has no body, so nothing can be
proved about any byte it gives; the n-th draw is `freeByte n`. Log entry 4. -/
opaque freeByte : Nat → Byte

end Sys2Proof.Config
end

