-- ==== Sys2Proof/Machine/Params.lean ====
section
/-! DEFINITION. The values this hardware gives the parameters of 00_scope.md R12, each the spec's own choice. Every operation
that depends on one takes it as an argument. Only the places where the machine is put together name a value: the meanings, the
step's fetch, the host interface and the conditions of Safety.lean. -/

namespace Sys2Proof.Machine

open Sys2Proof.Config

/-- GLYPH_TABLE, the default of 20_memory.md R59 (decision D3, log entry 1). -/
def glyphTable : GlyphTable :=
  ⟨⟨[0xF0, 0x90, 0x90, 0x90, 0xF0] ++ [0x20, 0x60, 0x20, 0x20, 0x70] ++
   [0xF0, 0x10, 0xF0, 0x80, 0xF0] ++ [0xF0, 0x10, 0xF0, 0x10, 0xF0] ++
   [0x90, 0x90, 0xF0, 0x10, 0x10] ++ [0xF0, 0x80, 0xF0, 0x10, 0xF0] ++
   [0xF0, 0x80, 0xF0, 0x90, 0xF0] ++ [0xF0, 0x10, 0x20, 0x40, 0x40] ++
   [0xF0, 0x90, 0xF0, 0x90, 0xF0] ++ [0xF0, 0x90, 0xF0, 0x10, 0xF0] ++
   [0xF0, 0x90, 0xF0, 0x90, 0x90] ++ [0xE0, 0x90, 0xE0, 0x90, 0xE0] ++
   [0xF0, 0x80, 0x80, 0x80, 0xF0] ++ [0xE0, 0x90, 0x90, 0x90, 0xE0] ++
   [0xF0, 0x80, 0xF0, 0x80, 0xF0] ++ [0xF0, 0x80, 0xF0, 0x80, 0x80]⟩, rfl⟩

/-- SPRITE_EDGE_POLICY, the spec's choice for this hardware (41_display.md R125, decision D4, log entry 5). -/
def spriteEdgePolicy : EdgePolicy := .clip

/-- FLAG_ORDER, the spec's choice (43_register_alu.md R160, decision D8, log entry 6). -/
def flagOrder : FlagOrder := .asListed

end Sys2Proof.Machine
end

