-- ==== Sys2Proof/Machine/State.lean ====
section
/-! DEFINITION. The state of the block as plain data (10_state.md, whole) and its value after reset (70_reset_and_hazards.md
R270). -/

namespace Sys2Proof.Machine

/-- Where an OutOfBoundsAccess left its space (60_exceptions.md R231, R235): the memory address, the key index, or the
display target. -/
inductive Site where
  | memory (address : Nat)
  | key (index : Byte)
  | display (cx cy : Nat)
deriving DecidableEq, Repr

/-- The record of a fatal error (60_exceptions.md R230, R231). `pc` is the PC of the step, `word` the fetched word. -/
inductive FatalError where
  /-- raised by the decode of a step (R232) -/
  | unknownOpcode (pc word : Word)
  /-- raised by 2NNN with SP = 16 (R233) -/
  | stackOverflow (pc word : Word)
  /-- raised by 00EE with SP = 0 (R234) -/
  | stackUnderflow (pc word : Word)
  /-- raised by a fetch (then without a word), DXYN, FX33, FX55, FX65, EX9E, EXA1 (R235) -/
  | outOfBoundsAccess (pc : Word) (word : Option Word) (site : Site)
deriving DecidableEq, Repr

/-- The engine state `eng` (10_state.md R30). -/
inductive Engine where
  | running
  /-- an FX0A waits for a key; `x` is its destination register -/
  | awaitingKey (x : Nibble)
  /-- a step raised `e`; left only by reset -/
  | faulted (e : FatalError)
deriving DecidableEq, Repr

/-- The display buffer: 32 rows of 64 one-bit cells (10_state.md R28). Cell disp[cx + 64 * cy] is bit cx of row cy. -/
abbrev Display := Vector (BitVec 64) 32

/-- Memory as the cells that differ from the reset contents: (address, byte) pairs, addresses strictly rising, no byte equal
to what an unlisted address reads as (`resetByte`, Machine/Params.lean). `Memory.wf` (Machine/Ops.lean) states the form. -/
abbrev Memory := List Host.Cell

/-- Why a step would stop the model. No constructor: every error the spec names is a state the engine enters (`faulted`,
60_exceptions.md R238), so no step of this block stops the model. -/
inductive Fault
deriving DecidableEq, Repr

/-- Why a step would be refused. -/
inductive Refusal where
  /-- Raised by no arm of `exec`: every row of the opcode table has its meaning. Safe: a refusal proves nothing of the
  hardware. -/
  | notModelled (mnemonic : String)
deriving DecidableEq, Repr

/-- All the state of the block (10_state.md), and last the model's own count of random draws. -/
structure State where
  /-- V[0..15] (R20) -/
  v : Vector Byte 16
  /-- I (R22) -/
  i : Word
  /-- PC, the address of the instruction being executed (R23) -/
  pc : Word
  /-- stack[0..15] (R24) -/
  stack : Vector Word 16
  /-- SP, 0..16 (R24) -/
  sp : Fin 17
  /-- the delay timer (R27) -/
  delay : Byte
  /-- the sound timer (R27) -/
  sound : Byte
  /-- disp[0..2047] (R28) -/
  disp : Display
  /-- key[0..15], true meaning pressed (R29) -/
  key : Vector Bool 16
  /-- mem[0x000..0xFFF] (20_memory.md R50) -/
  mem : Memory
  /-- eng (R30) -/
  eng : Engine
  /-- THE MODEL'S OWN: how many random bytes CXNN has drawn; the next is `Config.freeByte draws` (log entry 4) -/
  draws : Nat
deriving DecidableEq, Repr

/-- The block right after reset (R270): PC at the entry point, the engine running, every memory cell at its reset contents
(nothing listed), and all else zero (decision D2, log entry 2). -/
def State.reset : State where
  v := Vector.replicate 16 0
  i := 0
  pc := 0x200
  stack := Vector.replicate 16 0
  sp := 0
  delay := 0
  sound := 0
  disp := Vector.replicate 32 0
  key := Vector.replicate 16 false
  mem := []
  eng := .running
  draws := 0

end Sys2Proof.Machine
end

