-- ==== Sys2Proof/Machine/Ops.lean ====
section
/-! DEFINITION. The named operations over registers, memory, stack, display, keys and timers, and the entry into the faulted
state with the reset that leaves it. -/

namespace Sys2Proof.Machine

open Sys2Proof.Config

/-! ### One update per field -/

/-- V[x] <- b (10_state.md R15, R20). -/
def State.setV (s : State) (x : Nibble) (b : Byte) : State := { s with v := s.v.set x.toNat b x.isLt }

/-- I <- a. -/
def State.setI (s : State) (a : Word) : State := { s with i := a }

/-- PC <- a. -/
def State.setPc (s : State) (a : Word) : State := { s with pc := a }

/-- delay <- b. -/
def State.setDelay (s : State) (b : Byte) : State := { s with delay := b }

/-- sound <- b. -/
def State.setSound (s : State) (b : Byte) : State := { s with sound := b }

/-- disp <- d. -/
def State.setDisp (s : State) (d : Display) : State := { s with disp := d }

/-- mem <- m. -/
def State.setMem (s : State) (m : Memory) : State := { s with mem := m }

/-- eng <- e. -/
def State.setEng (s : State) (e : Engine) : State := { s with eng := e }

/-- The model's count of draws <- n (log entry 4). -/
def State.setDraws (s : State) (n : Nat) : State := { s with draws := n }

/-! ### General registers (10_state.md R20, R21) -/

/-- V[x]. -/
def State.getV (s : State) (x : Nibble) : Byte := s.v[x.toNat]'x.isLt

/-- The index of VF, the flag register (R21). -/
abbrev vF : Nibble := 0xF

/-- The sixteen register indices and key numbers, in ascending order. -/
def nibbles : List Nibble := [0x0, 0x1, 0x2, 0x3, 0x4, 0x5, 0x6, 0x7, 0x8, 0x9, 0xA, 0xB, 0xC, 0xD, 0xE, 0xF]

/-! ### Memory (20_memory.md R50 to R58) -/

/-- The contents of a memory cell right after reset (R270): the glyph table at 0x000..0x04F, 0 elsewhere. This is what an
address that `State.mem` does not list reads as. GLYPH_TABLE is an argument here and in every operation below that reads or
writes a cell (00_scope.md R12, R59). -/
def resetByte (table : GlyphTable) (a : Nat) : Byte := if h : a < 80 then table[a] else 0

/-- mem[a]: the listed byte, or the reset contents. Callers check the bounds first (`firstOutOfRange`, Operands.lean). -/
def Memory.read (m : Memory) (table : GlyphTable) (a : Nat) : Byte :=
  match m with
  | [] => resetByte table a
  | (c, b) :: rest => if a = c then b else Memory.read rest table a

/-- Put a cell before the first cell of a higher address. -/
def Memory.insert (m : Memory) (a : Nat) (b : Byte) : Memory :=
  match m with
  | [] => [(a, b)]
  | (c, d) :: rest => if a < c then (a, b) :: (c, d) :: rest else (c, d) :: Memory.insert rest a b

/-- Every cell but the one at `a`. -/
def Memory.without (m : Memory) (a : Nat) : Memory := m.filter (fun c => c.1 != a)

/-- mem[a] <- b, keeping the canonical form: a byte equal to the reset contents is not listed. -/
def Memory.write (m : Memory) (table : GlyphTable) (a : Nat) (b : Byte) : Memory :=
  if b = resetByte table a then m.without a else (m.without a).insert a b

/-- The canonical form: addresses strictly rising, all within the 4096 cells, no entry equal to the reset contents. -/
abbrev Memory.wf (m : Memory) (table : GlyphTable) : Prop :=
  m.Pairwise (fun c d => c.1 < d.1) ∧ ∀ c ∈ m, c.1 < memSize ∧ c.2 ≠ resetByte table c.1

/-- Single bytes read at ascending addresses (R55). -/
def Memory.readBlock (m : Memory) (table : GlyphTable) (base count : Nat) : List Byte :=
  (List.range count).map (fun k => m.read table (base + k))

/-- Single bytes written at ascending addresses (R55). -/
def Memory.writeBlock (m : Memory) (table : GlyphTable) (base : Nat) (bytes : List Byte) : Memory :=
  match bytes with
  | [] => m
  | b :: rest => Memory.writeBlock (m.write table base b) table (base + 1) rest

/-! ### Program counter (10_state.md R23, 40_cycle.md R113) -/

/-- PC <- (PC + 2) mod 65536. -/
def advance (s : State) : State := s.setPc (s.pc + 2)

/-- PC <- PC + 4 when the condition holds, else PC + 2, mod 65536. -/
def skipIf (c : Bool) (s : State) : State := s.setPc (s.pc + if c then 4 else 2)

/-! ### Call stack (10_state.md R24) -/

/-- push(a); none when SP = 16. -/
def push (a : Word) (s : State) : Option State :=
  if h : s.sp.val < 16 then
    some { s with stack := s.stack.set s.sp.val a h, sp := ⟨s.sp.val + 1, by omega⟩ }
  else none

/-- pop(); none when SP = 0. -/
def pop (s : State) : Option (Word × State) :=
  if h : 0 < s.sp.val then
    some (s.stack[s.sp.val - 1]'(by omega), { s with sp := ⟨s.sp.val - 1, by omega⟩ })
  else none

/-! ### Display cells (10_state.md R28) -/

/-- A cell's index j = cx + 64 * cy. -/
abbrev CellIx := Fin 2048

/-- disp[j]. -/
def Display.cell (d : Display) (j : CellIx) : Bool := (d[j.val / 64]'(by omega)).getLsbD (j.val % 64)

/-- disp[j] <- disp[j] ^ 1. -/
def Display.flip (d : Display) (j : CellIx) : Display :=
  d.set (j.val / 64) (d[j.val / 64]'(by omega) ^^^ (1#64 <<< (j.val % 64))) (by omega)

/-- Every cell 0. -/
def Display.blank : Display := Vector.replicate 32 0

/-! ### Keys (10_state.md R29) -/

/-- key[k]. -/
def State.pressed (s : State) (k : Nibble) : Bool := s.key[k.toNat]'k.isLt

/-- The lowest pressed key, if any (40_cycle.md R103, decision D10, log entry 8). -/
def lowestPressed (s : State) : Option Nibble := nibbles.find? s.pressed

/-- FX0A completes with key k into V[x] (R103, 45_input_timers.md R214); the tick is the step's. -/
def completeKeyWait (x k : Nibble) (s : State) : State := (advance (s.setV x (k.setWidth 8))).setEng .running

/-! ### Timers (60_exceptions.md R243) -/

/-- One count of a timer: it saturates at 0 and never wraps (R243). -/
def countDown (b : Byte) : Byte := if 0 < b.toNat then b - 1 else b

/-- One tick of both timers, and whether it fires the beep, that is, moves sound from 1 to 0 (R243, R244). -/
def tick (s : State) : State × Bool :=
  ((s.setDelay (countDown s.delay)).setSound (countDown s.sound),
   decide (0 < s.sound.toNat) && countDown s.sound == 0)

/-! ### Taking an error, and leaving it (60_exceptions.md R231, R238, R239) -/

/-- Fault entry: the step commits nothing and eng <- Faulted(e). There is no saved register, no mode change and no vector:
PC still holds the address of the faulting instruction (R238). -/
def raise (e : FatalError) (s : State) : State := s.setEng (.faulted e)

/-- The record of an OutOfBoundsAccess that the instruction `i` raises at `s` (R231). -/
def outOfBounds (i : Instr) (site : Site) (s : State) : FatalError :=
  .outOfBoundsAccess s.pc (some (encode i)) site

/-- reset(), the one way out of Faulted (R239; 70_reset_and_hazards.md R270, R271): every piece of the block's state at its
reset value. The model's own count of draws goes on, so that the bytes CXNN draws after a reset are fresh ones. -/
def restart (s : State) : State := State.reset.setDraws s.draws

/-- The numeric code of an error kind (R231); code 5 is loadProgram's ProgramTooLarge (Machine/Ports.lean). -/
def FatalError.code : FatalError → Nat
  | .unknownOpcode _ _ => 1
  | .stackOverflow _ _ => 2
  | .stackUnderflow _ _ => 3
  | .outOfBoundsAccess _ _ _ => 4

/-- The `pc` field of an error's record (R231). -/
def FatalError.pc : FatalError → Word
  | .unknownOpcode pc _ => pc
  | .stackOverflow pc _ => pc
  | .stackUnderflow pc _ => pc
  | .outOfBoundsAccess pc _ _ => pc

end Sys2Proof.Machine
end

