-- ==== Sys2Proof/Machine/Flags.lean ====
section
/-! DEFINITION. Every flag computation, and the order of the flag write (43_register_alu.md R160, R167 to R171, R173;
41_display.md R124). VF is the only flag (10_state.md R21, R32). -/

namespace Sys2Proof.Machine

open Sys2Proof.Config

/-- A flag as the byte VF takes. -/
def flagByte (f : Bool) : Byte := if f then 1 else 0

/-- The carry out of a + b: the exact sum exceeds 255 (R167). -/
def carryOut (a b : Byte) : Bool := decide (255 < a.toNat + b.toNat)

/-- No borrow in a - b: a >= b (R168, R170). -/
def noBorrow (a b : Byte) : Bool := decide (b.toNat ≤ a.toNat)

/-- The bit a right shift by one shifts out (R169). -/
def lowBitOut (a : Byte) : Bool := a.getLsbD 0

/-- The bit a left shift by one shifts out (R171). -/
def highBitOut (a : Byte) : Bool := a.getLsbD 7

/-- The result first, then the flag, both from the registers as they were (R160 FLAG_LAST, and 8XY4 under both orders). -/
def resultThenFlag (x : Nibble) (result : State → Byte) (flag : State → Bool) (s : State) : State :=
  (s.setV x (result s)).setV vF (flagByte (flag s))

/-- The flag first, then the result from the registers as the flag write left them (R160 AS_LISTED). -/
def flagThenResult (x : Nibble) (result : State → Byte) (flag : State → Bool) (s : State) : State :=
  let s' := s.setV vF (flagByte (flag s))
  s'.setV x (result s')

/-- A flag-setting operation whose table row lists the flag first, under either order (R160). -/
def writeFlagged (order : FlagOrder) (x : Nibble) (result : State → Byte) (flag : State → Bool) (s : State) : State :=
  match order with
  | .asListed => flagThenResult x result flag s
  | .flagLast => resultThenFlag x result flag s

/-- V[x] <- V[x] + V[y] mod 256, VF <- carry (R167). -/
def addFlagged (x y : Nibble) (s : State) : State :=
  resultThenFlag x (fun t => t.getV x + t.getV y) (fun t => carryOut (t.getV x) (t.getV y)) s

/-- VF <- no borrow, V[x] <- V[x] - V[y] mod 256 (R168). -/
def subFlagged (order : FlagOrder) (x y : Nibble) (s : State) : State :=
  writeFlagged order x (fun t => t.getV x - t.getV y) (fun t => noBorrow (t.getV x) (t.getV y)) s

/-- VF <- no borrow, V[x] <- V[y] - V[x] mod 256 (R170). -/
def subnFlagged (order : FlagOrder) (x y : Nibble) (s : State) : State :=
  writeFlagged order x (fun t => t.getV y - t.getV x) (fun t => noBorrow (t.getV y) (t.getV x)) s

/-- VF <- bit 0 of V[x], V[x] <- V[x] >> 1 (R169). -/
def shrFlagged (order : FlagOrder) (x : Nibble) (s : State) : State :=
  writeFlagged order x (fun t => t.getV x >>> 1) (fun t => lowBitOut (t.getV x)) s

/-- VF <- bit 7 of V[x], V[x] <- V[x] << 1 mod 256 (R171). -/
def shlFlagged (order : FlagOrder) (x : Nibble) (s : State) : State :=
  writeFlagged order x (fun t => t.getV x <<< 1) (fun t => highBitOut (t.getV x)) s

end Sys2Proof.Machine
end

