-- ==== Sys2Proof/Machine/Alu.lean ====
section
/-! DEFINITION. The register and arithmetic family (43_register_alu.md R160 to R173). -/

namespace Sys2Proof.Machine

open Sys2Proof.Config

/-- 6XNN: V[X] <- NN (R161). -/
def execLdImm (x : Nibble) (nn : Byte) (s : State) : Host.Outcome State Fault Refusal :=
  .next (advance (s.setV x nn))

/-- 7XNN: V[X] <- V[X] + NN mod 256, no flag (R162). -/
def execAddImm (x : Nibble) (nn : Byte) (s : State) : Host.Outcome State Fault Refusal :=
  .next (advance (s.setV x (s.getV x + nn)))

/-- 8XY0: V[X] <- V[Y] (R163). -/
def execLdReg (x y : Nibble) (s : State) : Host.Outcome State Fault Refusal :=
  .next (advance (s.setV x (s.getV y)))

/-- 8XY1: V[X] <- V[X] | V[Y] (R164). -/
def execOrReg (x y : Nibble) (s : State) : Host.Outcome State Fault Refusal :=
  .next (advance (s.setV x (s.getV x ||| s.getV y)))

/-- 8XY2: V[X] <- V[X] & V[Y] (R165). -/
def execAndReg (x y : Nibble) (s : State) : Host.Outcome State Fault Refusal :=
  .next (advance (s.setV x (s.getV x &&& s.getV y)))

/-- 8XY3: V[X] <- V[X] ^ V[Y] (R166). -/
def execXorReg (x y : Nibble) (s : State) : Host.Outcome State Fault Refusal :=
  .next (advance (s.setV x (s.getV x ^^^ s.getV y)))

/-- 8XY4: add, VF = carry (R167). -/
def execAddReg (x y : Nibble) (s : State) : Host.Outcome State Fault Refusal :=
  .next (advance (addFlagged x y s))

/-- 8XY5: subtract V[Y] from V[X], VF = no borrow (R168). -/
def execSubReg (x y : Nibble) (s : State) : Host.Outcome State Fault Refusal :=
  .next (advance (subFlagged flagOrder x y s))

/-- 8XY6: shift V[X] right by one, VF = the bit out; V[Y] is not read (R169). -/
def execShr (x _y : Nibble) (s : State) : Host.Outcome State Fault Refusal :=
  .next (advance (shrFlagged flagOrder x s))

/-- 8XY7: V[X] <- V[Y] - V[X], VF = no borrow (R170). -/
def execSubn (x y : Nibble) (s : State) : Host.Outcome State Fault Refusal :=
  .next (advance (subnFlagged flagOrder x y s))

/-- 8XYE: shift V[X] left by one, VF = the bit out; V[Y] is not read (R171). -/
def execShl (x _y : Nibble) (s : State) : Host.Outcome State Fault Refusal :=
  .next (advance (shlFlagged flagOrder x s))

/-- Draw the next random byte (40_cycle.md R114, decision D12, log entry 4). -/
def drawByte (s : State) : Byte × State := (freeByte s.draws, s.setDraws (s.draws + 1))

/-- CXNN: V[X] <- rnd & NN (R172). -/
def execRnd (x : Nibble) (nn : Byte) (s : State) : Host.Outcome State Fault Refusal :=
  .next (advance ((drawByte s).2.setV x ((drawByte s).1 &&& nn)))

end Sys2Proof.Machine
end

