-- ==== Sys2Proof/Machine/Operands.lean ====
section
/-! DEFINITION. Operand forms: the one data addressing mode "I plus a small offset" with its bounds (44_index_memory.md R196,
20_memory.md R53), register blocks, immediates and the values an instruction stores. -/

namespace Sys2Proof.Machine

open Sys2Proof.Config

/-- The lowest out-of-range address of the accesses base .. base+count-1, none if all are within memory (R53, R237). The sums
are exact naturals. No access, no bound: with count = 0 there is none. -/
def firstOutOfRange (base count : Nat) : Option Nat :=
  if count = 0 ∨ base + count ≤ memSize then none else some (max base memSize)

/-- NNN zero-extended to 16 bits (30_encoding.md R83). -/
def zextAddr (nnn : Addr) : Word := nnn.setWidth 16

/-- V[x] zero-extended to 16 bits. -/
def zextByte (b : Byte) : Word := b.setWidth 16

/-- The registers V0..VX of a block operand (44_index_memory.md R194, R195). -/
def regsUpTo (x : Nibble) : List Nibble := nibbles.take (x.toNat + 1)

/-- I after a block transfer: (I + X + 1) mod 65536 (R194, R195). -/
def indexAfterBlock (s : State) (x : Nibble) : Word := s.i + (x.setWidth 16 + 1)

/-- V[r] <- mem[base + r] for the listed registers in order (R195). -/
def loadBlock (table : GlyphTable) (s : State) (base : Nat) (regs : List Nibble) : State :=
  regs.foldl (fun t r => t.setV r (s.mem.read table (base + r.toNat))) s

/-- The address of the glyph of a value, V[x] * 5 (R192): the whole byte is multiplied. -/
def glyphAddress (b : Byte) : Word := zextByte b * 5

/-- The hundreds, tens and units of a byte (R193). -/
def decimalDigits (b : Byte) : List Byte :=
  [BitVec.ofNat 8 (b.toNat / 100), BitVec.ofNat 8 (b.toNat / 10 % 10), BitVec.ofNat 8 (b.toNat % 10)]

end Sys2Proof.Machine
end

