-- ==== Sys2Proof/Machine/Control.lean ====
section
/-! DEFINITION. The control transfer family (42_control_flow.md R140 to R149). Targets are not checked here: a PC the fetch
cannot read faults at the next step (R148). -/

namespace Sys2Proof.Machine

/-- 00EE: PC <- pop() + 2, or StackUnderflow (R140). -/
def execRet (s : State) : Host.Outcome State Fault Refusal :=
  match pop s with
  | some (a, t) => .next (t.setPc (a + 2))
  | none => .next (raise (.stackUnderflow s.pc (encode .ret)) s)

/-- 1NNN: PC <- NNN (R141). -/
def execJp (nnn : Addr) (s : State) : Host.Outcome State Fault Refusal :=
  .next (s.setPc (zextAddr nnn))

/-- 2NNN: push(PC), then PC <- NNN, or StackOverflow (R142). The pushed value is this instruction's own address (R25). -/
def execCall (nnn : Addr) (s : State) : Host.Outcome State Fault Refusal :=
  match push s.pc s with
  | some t => .next (t.setPc (zextAddr nnn))
  | none => .next (raise (.stackOverflow s.pc (encode (.call nnn))) s)

/-- BNNN: PC <- NNN + V0 (R143). -/
def execJpV0 (nnn : Addr) (s : State) : Host.Outcome State Fault Refusal :=
  .next (s.setPc (zextAddr nnn + zextByte (s.getV 0)))

/-- 3XNN: skip if V[X] = NN (R144). -/
def execSeImm (x : Nibble) (nn : Byte) (s : State) : Host.Outcome State Fault Refusal :=
  .next (skipIf (s.getV x == nn) s)

/-- 4XNN: skip if V[X] != NN (R145). -/
def execSneImm (x : Nibble) (nn : Byte) (s : State) : Host.Outcome State Fault Refusal :=
  .next (skipIf (s.getV x != nn) s)

/-- 5XY0: skip if V[X] = V[Y] (R146). -/
def execSeReg (x y : Nibble) (s : State) : Host.Outcome State Fault Refusal :=
  .next (skipIf (s.getV x == s.getV y) s)

/-- 9XY0: skip if V[X] != V[Y] (R147). -/
def execSneReg (x y : Nibble) (s : State) : Host.Outcome State Fault Refusal :=
  .next (skipIf (s.getV x != s.getV y) s)

end Sys2Proof.Machine
end

