-- ==== Sys2Proof/Machine/Display.lean ====
section
/-! DEFINITION. The display family: 00E0 and DXYN (41_display.md R120 to R127). -/

namespace Sys2Proof.Machine

open Sys2Proof.Config

/-- 00E0: clear the display (R120). That the step reports a redraw is in Machine/Cycle.lean (R109). -/
def execCls (s : State) : Host.Outcome State Fault Refusal :=
  .next (advance (s.setDisp Display.blank))

/-- What becomes of a set sprite bit. -/
inductive Placement where
  | onCell (j : CellIx)
  | discarded
  | rejected
deriving DecidableEq, Repr

/-- place(cx, cy) under an edge policy (R125). -/
def place (policy : EdgePolicy) (cx cy : Nat) : Placement :=
  match policy with
  | .clip => if h : cx < 64 ∧ cy < 32 then .onCell ⟨cx + 64 * cy, by omega⟩ else .discarded
  | .wrap => .onCell ⟨cx % 64 + 64 * (cy % 32), by omega⟩
  | .reject => if h : cx < 64 ∧ cy < 32 then .onCell ⟨cx + 64 * cy, by omega⟩ else .rejected

/-- The targets of one row's set bits, most significant bit leftmost, as exact naturals (R123). -/
def rowTargets (vx cy : Nat) (row : Byte) : List (Nat × Nat) :=
  ((List.range 8).filter (fun b => row.getLsbD (7 - b))).map (fun b => (vx + b, cy))

/-- The targets of a sprite whose first row is at cy: rows ascending, then bits ascending (R123, R125). -/
def spriteTargets (vx cy : Nat) (rows : List Byte) : List (Nat × Nat) :=
  match rows with
  | [] => []
  | row :: rest => rowTargets vx cy row ++ spriteTargets vx (cy + 1) rest

/-- The first target the policy rejects, checked over all set bits before any cell changes (R125). -/
def firstRejected (policy : EdgePolicy) (targets : List (Nat × Nat)) : Option (Nat × Nat) :=
  targets.find? (fun p => place policy p.1 p.2 == .rejected)

/-- The cells a sprite's targets land on, in order. -/
def landedCells (policy : EdgePolicy) (targets : List (Nat × Nat)) : List CellIx :=
  targets.filterMap (fun p =>
    match place policy p.1 p.2 with
    | .onCell j => some j
    | .discarded => none
    | .rejected => none)

/-- XOR one cell with 1, raising the collision flag if it was 1 (R124). -/
def plot (c : Display × Bool) (j : CellIx) : Display × Bool :=
  (c.1.flip j, c.2 || c.1.cell j)

/-- XOR cells in order from a lowered flag: the buffer after, and the flag. -/
def composite (d : Display) (cells : List CellIx) : Display × Bool := cells.foldl plot (d, false)

/-- DXYN under a glyph table and an edge policy (R121). -/
def drawSprite (table : GlyphTable) (policy : EdgePolicy) (x y n : Nibble) (s : State) : State :=
  match firstOutOfRange s.i.toNat n.toNat with
  | some a => raise (outOfBounds (.drw x y n) (.memory a) s) s
  | none =>
    let rows := s.mem.readBlock table s.i.toNat n.toNat
    let targets := spriteTargets (s.getV x).toNat (s.getV y).toNat rows
    match firstRejected policy targets with
    | some p => raise (outOfBounds (.drw x y n) (.display p.1 p.2) s) s
    | none =>
      let out := composite s.disp (landedCells policy targets)
      advance ((s.setDisp out.1).setV vF (flagByte out.2))

/-- DXYN: draw a sprite, VF <- collision (R121), under this hardware's parameters. -/
def execDrw (x y n : Nibble) (s : State) : Host.Outcome State Fault Refusal :=
  .next (drawSprite glyphTable spriteEdgePolicy x y n s)

end Sys2Proof.Machine
end

