-- ==== Sys2Proof/Machine/IndexMem.lean ====
section
/-! DEFINITION. The index register and memory family (44_index_memory.md R190 to R196). Each checks the bounds of its whole
range before its first write (20_memory.md R53). -/

namespace Sys2Proof.Machine

/-- ANNN: I <- NNN (R190). -/
def execLdI (nnn : Addr) (s : State) : Host.Outcome State Fault Refusal :=
  .next (advance (s.setI (zextAddr nnn)))

/-- FX1E: I <- I + V[X] mod 65536, no flag (R191). -/
def execAddI (x : Nibble) (s : State) : Host.Outcome State Fault Refusal :=
  .next (advance (s.setI (s.i + zextByte (s.getV x))))

/-- FX29: I <- V[X] * 5 (R192). -/
def execLdGlyph (x : Nibble) (s : State) : Host.Outcome State Fault Refusal :=
  .next (advance (s.setI (glyphAddress (s.getV x))))

/-- FX33: the decimal digits of V[X] at I, I+1, I+2; I unchanged (R193). -/
def execLdBcd (x : Nibble) (s : State) : Host.Outcome State Fault Refusal :=
  match firstOutOfRange s.i.toNat 3 with
  | some a => .next (raise (outOfBounds (.ldBcd x) (.memory a) s) s)
  | none => .next (advance (s.setMem (s.mem.writeBlock glyphTable s.i.toNat (decimalDigits (s.getV x)))))

/-- FX55: store V0..VX at I, then I <- I + X + 1 (R194). -/
def execStoreRegs (x : Nibble) (s : State) : Host.Outcome State Fault Refusal :=
  match firstOutOfRange s.i.toNat (x.toNat + 1) with
  | some a => .next (raise (outOfBounds (.storeRegs x) (.memory a) s) s)
  | none =>
    let stored := s.setMem (s.mem.writeBlock glyphTable s.i.toNat ((regsUpTo x).map s.getV))
    .next (advance (stored.setI (indexAfterBlock s x)))

/-- FX65: load V0..VX from I, then I <- I + X + 1 (R195). -/
def execLoadRegs (x : Nibble) (s : State) : Host.Outcome State Fault Refusal :=
  match firstOutOfRange s.i.toNat (x.toNat + 1) with
  | some a => .next (raise (outOfBounds (.loadRegs x) (.memory a) s) s)
  | none => .next (advance ((loadBlock glyphTable s s.i.toNat (regsUpTo x)).setI (indexAfterBlock s x)))

end Sys2Proof.Machine
end

