-- ==== Sys2Proof/Machine/InputTimers.lean ====
section
/-! DEFINITION. The key and timer family (45_input_timers.md R210 to R216). The tick that ends a completed step is the step's,
not the instruction's (Machine/Cycle.lean). -/

namespace Sys2Proof.Machine

/-- A key skip: OutOfBoundsAccess(key, V[X]) when V[X] > 15 (R212, decision D11, log entry 9), else skip when the key's state
is the one sought. -/
def skipOnKey (i : Instr) (x : Nibble) (sought : Bool) (s : State) : State :=
  if 15 < (s.getV x).toNat then raise (outOfBounds i (.key (s.getV x)) s) s
  else skipIf (s.pressed ((s.getV x).setWidth 4) == sought) s

/-- EX9E: skip if key V[X] is pressed (R210). -/
def execSkp (x : Nibble) (s : State) : Host.Outcome State Fault Refusal :=
  .next (skipOnKey (.skp x) x true s)

/-- EXA1: skip if key V[X] is not pressed (R211). -/
def execSknp (x : Nibble) (s : State) : Host.Outcome State Fault Refusal :=
  .next (skipOnKey (.sknp x) x false s)

/-- FX07: V[X] <- delay (R213). -/
def execLdFromDelay (x : Nibble) (s : State) : Host.Outcome State Fault Refusal :=
  .next (advance (s.setV x s.delay))

/-- FX0A: the lowest pressed key into V[X], or eng <- AwaitingKey(X) with PC unchanged (R214). -/
def execLdKey (x : Nibble) (s : State) : Host.Outcome State Fault Refusal :=
  match lowestPressed s with
  | some k => .next (completeKeyWait x k s)
  | none => .next (s.setEng (.awaitingKey x))

/-- FX15: delay <- V[X] (R215). -/
def execLdDelay (x : Nibble) (s : State) : Host.Outcome State Fault Refusal :=
  .next (advance (s.setDelay (s.getV x)))

/-- FX18: sound <- V[X] (R216). -/
def execLdSound (x : Nibble) (s : State) : Host.Outcome State Fault Refusal :=
  .next (advance (s.setSound (s.getV x)))

end Sys2Proof.Machine
end

