-- ==== Sys2Proof/Machine/Cycle.lean ====
section
/-! DEFINITION. One step of the engine with its result (40_cycle.md R100 to R114). -/

namespace Sys2Proof.Machine

/-- The step result (R108): Ok{redraw, beep}, or Error(e). It is not held in State (10_state.md R35). -/
inductive StepResult where
  | ok (redraw beep : Bool)
  | error (e : FatalError)
deriving DecidableEq, Repr

/-- What fetch and decode give: an instruction, or the error they raise. -/
inductive Fetched where
  | instr (i : Instr)
  | raised (e : FatalError)
deriving DecidableEq, Repr

/-- The word at PC, big-endian (20_memory.md R54). -/
def fetchWord (table : Config.GlyphTable) (s : State) : Word :=
  wordOfBytes (s.mem.read table s.pc.toNat) (s.mem.read table (s.pc.toNat + 1))

/-- Fetch, then decode (R104 (1), (2)): OutOfBoundsAccess of the fetch comes before UnknownOpcode (60_exceptions.md R237). -/
def fetchDecode (s : State) : Fetched :=
  match firstOutOfRange s.pc.toNat 2 with
  | some a => .raised (.outOfBoundsAccess s.pc none (.memory a))
  | none =>
    match decode (fetchWord glyphTable s) with
    | .instr i => .instr i
    | .unknownOpcode w => .raised (.unknownOpcode s.pc w)

/-- Whether a completed instruction reports a redraw: exactly 00E0 and DXYN (R109). -/
def redraws : Instr → Bool
  | .cls => true
  | .drw _ _ _ => true
  | _ => false

/-- The end of a step after execute (R104 (4), (5), R107): the tick, unless the instruction left the engine waiting or
faulted. -/
def finish (redraw : Bool) (t : State) : State × StepResult :=
  match t.eng with
  | .running => ((tick t).1, .ok redraw (tick t).2)
  | .awaitingKey _ => (t, .ok false false)
  | .faulted e => (t, .error e)

/-- A step while FX0A waits for a key into V[x] (R103). -/
def recheckKeys (x : Nibble) (s : State) : State × StepResult :=
  match lowestPressed s with
  | none => (s, .ok false false)
  | some k => finish false (completeKeyWait x k s)

/-- A step while running (R104). -/
def runInstruction (s : State) : Host.Outcome (State × StepResult) Fault Refusal :=
  match fetchDecode s with
  | .raised e => .next (raise e s, .error e)
  | .instr i =>
    match exec i s with
    | .next t => .next (finish (redraws i) t)
    | .fault f => .fault f
    | .refused r => .refused r

/-- One step by engine state (R105): the state after and the result. -/
def transition (s : State) : Host.Outcome (State × StepResult) Fault Refusal :=
  match s.eng with
  | .faulted e => .next (s, .error e)
  | .awaitingKey x => .next (recheckKeys x s)
  | .running => runInstruction s

/-- A step's state without its result. -/
def stateOnly (o : Host.Outcome (State × StepResult) Fault Refusal) : Host.Outcome State Fault Refusal :=
  match o with
  | .next p => .next p.1
  | .fault f => .fault f
  | .refused r => .refused r

/-- Lay one word at PC and make the next step fetch it: the two bytes most significant first (R54), the engine running, and
PC at the entry point if PC holds no address a fetch can read. Log entry 7. -/
def placeAtPc (table : Config.GlyphTable) (hi lo : Byte) (s : State) : State :=
  let at_ := match firstOutOfRange s.pc.toNat 2 with
    | some _ => BitVec.ofNat 16 Config.programBase
    | none => s.pc
  { s with pc := at_, mem := s.mem.writeBlock table at_.toNat [hi, lo], eng := .running }

end Sys2Proof.Machine
end

