-- ==== Sys2Proof/Machine/Step.lean ====
section
/-! DEFINITION. The step of the machine (40_cycle.md R105), and an instruction laid where it fetches. -/

namespace Sys2Proof.Machine

/-- One call of step() (R19, R100). The random byte is the free value of log entry 4; the result is `transition`'s. -/
def step (s : State) : Host.Outcome State Fault Refusal := stateOnly (transition s)

/-- `s` with the instruction whose opcode-table bits are `w` stored where `step` fetches next (log entry 7). -/
def State.withFetchWord (s : State) (nbits w : Nat) : State :=
  placeAtPc glyphTable (tableHi nbits w) (tableLo nbits w) s

end Sys2Proof.Machine
end

