-- ==== Sys2Proof/Machine/Ports.lean ====
section
/-! DEFINITION. The host interface: the five transactions between steps and the duties that close it (60_exceptions.md R236,
R247, R248; 20_memory.md R60). -/

namespace Sys2Proof.Machine

open Sys2Proof.Config

/-- What loadProgram gives (R60, R231 code 5, R236). -/
inductive LoadResult where
  | loaded (s : State)
  | programTooLarge (length : Nat)
deriving DecidableEq, Repr

/-- The numeric code of ProgramTooLarge (R231). -/
def programTooLargeCode : Nat := 5

/-- loadProgram(bytes) (R60): all the bytes from 0x200, or nothing. -/
def loadProgram (table : GlyphTable) (bytes : List Byte) (s : State) : LoadResult :=
  if maxProgram < bytes.length then .programTooLarge bytes.length
  else .loaded (s.setMem (s.mem.writeBlock table programBase bytes))

/-- setKey(k, pressed) for a key number (R247). -/
def setKey (k : Nibble) (pressed : Bool) (s : State) : State := { s with key := s.key.set k.toNat pressed k.isLt }

/-- snapshot(): the 2048 cells disp[0..2047] (R247). -/
def snapshot (s : State) : List Bool := (List.finRange 2048).map s.disp.cell

/-- The block with what the host's duties turn on (R248): before the first reset it has no defined state; afterwards
`loadOpen` says whether loadProgram has a move, that is, no step and no successful load since the last reset. -/
inductive Session where
  | beforeReset
  | live (block : State) (loadOpen : Bool)
deriving DecidableEq, Repr

/-- An operation the host calls (R247). The random byte of step is the model's free value (log entry 4). -/
inductive HostAction where
  | reset
  | loadProgram (bytes : List Byte)
  | setKey (k : Nat) (pressed : Bool)
  | step
  | snapshot
deriving DecidableEq, Repr

/-- What an operation returns to the host. -/
inductive HostAnswer where
  | done
  | loaded
  | programTooLarge (length : Nat)
  | stepped (r : StepResult)
  | cells (disp : List Bool)
deriving DecidableEq, Repr

/-- One host operation on a live block: none where R248 gives it no move. -/
def actLive (a : HostAction) (block : State) (loadOpen : Bool) : Option (Session × HostAnswer) :=
  match a with
  | .reset => some (.live (restart block) true, .done)
  | .loadProgram bytes =>
    if loadOpen then
      match loadProgram glyphTable bytes block with
      | .loaded t => some (.live t false, .loaded)
      | .programTooLarge n => some (.live block true, .programTooLarge n)
    else none
  | .setKey k pressed =>
    if k < 16 then some (.live (setKey (BitVec.ofNat 4 k) pressed block) loadOpen, .done) else none
  | .step =>
    match transition block with
    | .next p => some (.live p.1 false, .stepped p.2)
    | .fault _ => none
    | .refused _ => none
  | .snapshot => some (.live block loadOpen, .cells (snapshot block))

/-- One host operation; before the first reset only reset() has a move (R248, R273). -/
def act (a : HostAction) (h : Session) : Option (Session × HostAnswer) :=
  match h with
  | .live block loadOpen => actLive a block loadOpen
  | .beforeReset =>
    match a with
    | .reset => some (.live State.reset true, .done)
    | .loadProgram _ => none
    | .setKey _ _ => none
    | .step => none
    | .snapshot => none

end Sys2Proof.Machine
end

