-- ==== Sys2Proof/Safety.lean ====
section
/-! DEFINITION. What claims are stated in: the observable parts of a state, what it is to leave one unchanged, and the
conditions a run keeps. -/

namespace Sys2Proof

open Sys2Proof.Machine

/-- One piece of state a program or the host can tell apart (10_state.md): a register, a stack entry, a memory byte, a
display cell, a key. -/
inductive Part where
  | v (x : Nibble)
  | i
  | pc
  | stackEntry (j : Fin 16)
  | sp
  | delay
  | sound
  | cell (j : CellIx)
  | key (k : Nibble)
  | byte (a : Nat)
  | eng
  | draws
deriving DecidableEq, Repr

/-- The part `p` has the same value in both states. -/
def Same (p : Part) (s t : State) : Prop :=
  match p with
  | .v x => t.getV x = s.getV x
  | .i => t.i = s.i
  | .pc => t.pc = s.pc
  | .stackEntry j => t.stack[j] = s.stack[j]
  | .sp => t.sp = s.sp
  | .delay => t.delay = s.delay
  | .sound => t.sound = s.sound
  | .cell j => t.disp.cell j = s.disp.cell j
  | .key k => t.pressed k = s.pressed k
  | .byte a => t.mem.read glyphTable a = s.mem.read glyphTable a
  | .eng => t.eng = s.eng
  | .draws => t.draws = s.draws

/-- `t` differs from `s` at most in the parts `written` names: the frame of an instruction. -/
def ChangesOnly (written : Part → Prop) (s t : State) : Prop := ∀ p, ¬ written p → Same p s t

/-- The engine has not faulted: the safe states of a run (60_exceptions.md R238). -/
def NotFaulted (s : State) : Prop := ∀ e, s.eng ≠ .faulted e

/-- Memory is in its canonical form. -/
def MemoryCanonical (s : State) : Prop := s.mem.wf glyphTable

/-- The engine state agrees with PC: while it awaits a key for V[x], PC holds the address of that FX0A (10_state.md R30), and
a recorded fault's `pc` is the PC the block is left at (60_exceptions.md R238). -/
def EngineAgreesWithPc (s : State) : Prop :=
  match s.eng with
  | .running => True
  | .awaitingKey x => fetchDecode s = .instr (.ldKey x)
  | .faulted e => e.pc = s.pc

/-- PC is at most 0x10FE, the highest value an instruction can leave (42_control_flow.md R143), and every live stack entry is
an address a fetch can read. Where this holds no write of PC wraps (10_state.md R23). -/
def PcBounded (s : State) : Prop :=
  s.pc.toNat ≤ 0x10FE ∧ ∀ j : Fin 16, j.val < s.sp.val → s.stack[j].toNat ≤ 0xFFE

/-- What every host operation keeps: a live block meets the conditions above, and while loadProgram has a move no step has been
taken, so the engine is running (60_exceptions.md R248). -/
def SessionSound (h : Session) : Prop :=
  match h with
  | .beforeReset => True
  | .live s loadOpen =>
    MemoryCanonical s ∧ EngineAgreesWithPc s ∧ PcBounded s ∧ (loadOpen = true → s.eng = .running)

end Sys2Proof
end

