-- ==== Sys2Proof/Certificates/Slice0/Obligations.lean ====
section
/-! DEFINITION. The statements for the provers: what the rules of spec/ say the block does. A statement that rests on a
decision of the spec (a rule's "[decision: see D<n>]") or on a choice of the model says so and names it. Numbers are exact
naturals (00_scope.md R14); a register's number is its `toNat`. -/

namespace Sys2Proof.Claims

open Sys2Proof Sys2Proof.Machine

/-- `exec i` answers a next state at `s` that meets `post` and differs from `s` only in the parts `written` names. -/
def Completes (i : Instr) (s : State) (written : Part → Prop) (post : State → Prop) : Prop :=
  ∃ t, exec i s = .next t ∧ ChangesOnly written s t ∧ post t

/-- `exec i` raises `e` at `s`: the engine is Faulted(e) (decision D6) and nothing else has changed (decision D5); the fields
of the record `e` are decision D7's (R231). -/
def Raises (i : Instr) (s : State) (e : FatalError) : Prop := exec i s = .next { s with eng := .faulted e }

/-- The word numbered `n` is decoded as `i`. -/
def WordOf (n : Nat) (i : Instr) : Prop := decode (BitVec.ofNat 16 n) = .instr i

/-- PC has gone on by `k`, modulo 65536. -/
def PcAdvances (k : Nat) (s t : State) : Prop := t.pc.toNat = (s.pc.toNat + k) % 65536

/-- A register's number. -/
def num (s : State) (x : Nibble) : Nat := (s.getV x).toNat

/-- The number of a flag. -/
def flagNum (p : Prop) [Decidable p] : Nat := if p then 1 else 0

/-- OutOfBoundsAccess of memory by the instruction whose word is numbered `word`: the lowest address out of range is I, or
0x1000 where I is within memory (R53). -/
def memoryError (s : State) (word : Nat) : FatalError :=
  .outOfBoundsAccess s.pc (some (BitVec.ofNat 16 word)) (.memory (max s.i.toNat 0x1000))

/-- The word at PC as R54 gives it. -/
def wordAtPc (s : State) : Nat :=
  (s.mem.read glyphTable s.pc.toNat).toNat * 256 + (s.mem.read glyphTable (s.pc.toNat + 1)).toNat

/-- A step from `s` fetches and decodes `i`. -/
def Fetches (s : State) (i : Instr) : Prop :=
  s.eng = .running ∧ s.pc.toNat + 1 ≤ 0xFFF ∧ WordOf (wordAtPc s) i

/-- The opcode map of R85 with the fields of R81, in numbers: the word numbered `w` is the instruction. -/
def OpcodeMap (w : Nat) (i : Instr) : Prop :=
  let group (o : Nat) := w / 4096 = o
  let isX (x : Nibble) := x.toNat = w / 256 % 16
  let isY (y : Nibble) := y.toNat = w / 16 % 16
  let isN (n : Nat) := n = w % 16
  let isNN (nn : Nat) := nn = w % 256
  let isNNN (nnn : Addr) := nnn.toNat = w % 4096
  match i with
  | .cls => w = 0x00E0
  | .ret => w = 0x00EE
  | .jp nnn => group 1 ∧ isNNN nnn
  | .call nnn => group 2 ∧ isNNN nnn
  | .seImm x nn => group 3 ∧ isX x ∧ isNN nn.toNat
  | .sneImm x nn => group 4 ∧ isX x ∧ isNN nn.toNat
  | .seReg x y => group 5 ∧ isX x ∧ isY y ∧ isN 0
  | .ldImm x nn => group 6 ∧ isX x ∧ isNN nn.toNat
  | .addImm x nn => group 7 ∧ isX x ∧ isNN nn.toNat
  | .ldReg x y => group 8 ∧ isX x ∧ isY y ∧ isN 0
  | .orReg x y => group 8 ∧ isX x ∧ isY y ∧ isN 1
  | .andReg x y => group 8 ∧ isX x ∧ isY y ∧ isN 2
  | .xorReg x y => group 8 ∧ isX x ∧ isY y ∧ isN 3
  | .addReg x y => group 8 ∧ isX x ∧ isY y ∧ isN 4
  | .subReg x y => group 8 ∧ isX x ∧ isY y ∧ isN 5
  | .shr x y => group 8 ∧ isX x ∧ isY y ∧ isN 6
  | .subn x y => group 8 ∧ isX x ∧ isY y ∧ isN 7
  | .shl x y => group 8 ∧ isX x ∧ isY y ∧ isN 14
  | .sneReg x y => group 9 ∧ isX x ∧ isY y ∧ isN 0
  | .ldI nnn => group 10 ∧ isNNN nnn
  | .jpV0 nnn => group 11 ∧ isNNN nnn
  | .rnd x nn => group 12 ∧ isX x ∧ isNN nn.toNat
  | .drw x y n => group 13 ∧ isX x ∧ isY y ∧ isN n.toNat
  | .skp x => group 14 ∧ isX x ∧ isNN 0x9E
  | .sknp x => group 14 ∧ isX x ∧ isNN 0xA1
  | .ldFromDelay x => group 15 ∧ isX x ∧ isNN 0x07
  | .ldKey x => group 15 ∧ isX x ∧ isNN 0x0A
  | .ldDelay x => group 15 ∧ isX x ∧ isNN 0x15
  | .ldSound x => group 15 ∧ isX x ∧ isNN 0x18
  | .addI x => group 15 ∧ isX x ∧ isNN 0x1E
  | .ldGlyph x => group 15 ∧ isX x ∧ isNN 0x29
  | .ldBcd x => group 15 ∧ isX x ∧ isNN 0x33
  | .storeRegs x => group 15 ∧ isX x ∧ isNN 0x55
  | .loadRegs x => group 15 ∧ isX x ∧ isNN 0x65

/-- A register's number after VF has taken the flag `f` (R160 AS_LISTED: the later statement reads what the earlier wrote). -/
def numAfterFlag (s : State) (f : Nat) (x : Nibble) : Nat := if x = 0xF then f else num s x

/-- VF takes the flag `f`, then V[x] the result `r`: what AS_LISTED leaves, where `x` may be F. -/
def FlagThenResult (x : Nibble) (f r : Nat) (t : State) : Prop := num t x = r ∧ (x ≠ 0xF → num t 0xF = f)

/-- V[x] takes the result `r`, then VF the flag `f`: what FLAG_LAST leaves, where `x` may be F. -/
def ResultThenFlag (x : Nibble) (f r : Nat) (t : State) : Prop := num t 0xF = f ∧ (x ≠ 0xF → num t x = r)

/-- Under a glyph table, bit b of row r of the sprite DXYN draws at `s` is set and its target is column `cx`, row `cy` (R122,
R123). -/
def SpriteBit (table : Config.GlyphTable) (x y n : Nibble) (s : State) (r b cx cy : Nat) : Prop :=
  r < n.toNat ∧ b < 8 ∧ (s.mem.read table (s.i.toNat + r)).getLsbD (7 - b) = true ∧
    cx = num s x + b ∧ cy = num s y + r

/-- The cell a target falls on under a policy (R125). -/
def TargetCell (policy : Config.EdgePolicy) (cx cy j : Nat) : Prop :=
  match policy with
  | .clip => cx < 64 ∧ cy < 32 ∧ j = cx + 64 * cy
  | .wrap => j = cx % 64 + 64 * (cy % 32)
  | .reject => cx < 64 ∧ cy < 32 ∧ j = cx + 64 * cy

/-- Some set sprite bit falls on cell `j`. -/
def Hits (table : Config.GlyphTable) (policy : Config.EdgePolicy) (x y n : Nibble) (s : State) (j : CellIx) : Prop :=
  ∃ r b cx cy, SpriteBit table x y n s r b cx cy ∧ TargetCell policy cx cy j.val

/-- The rows DXYN reads lie in memory. -/
def RowsInMemory (n : Nibble) (s : State) : Prop := n.toNat = 0 ∨ s.i.toNat + n.toNat ≤ 4096

/-- The policy accepts every target: under REJECT, all of them are on the frame (R125). -/
def PolicyAccepts (table : Config.GlyphTable) (policy : Config.EdgePolicy) (x y n : Nibble) (s : State) : Prop :=
  policy = .reject → ∀ r b cx cy, SpriteBit table x y n s r b cx cy → cx < 64 ∧ cy < 32

/-- `t` is `s` after the draw: the hit cells flipped, VF the collision flag, PC advanced, all else unchanged (R121, R124). -/
def Drawn (table : Config.GlyphTable) (policy : Config.EdgePolicy) (x y n : Nibble) (s t : State) : Prop :=
  ChangesOnly (fun p => p = .pc ∨ p = .v 0xF ∨ ∃ j, p = .cell j ∧ Hits table policy x y n s j) s t ∧
  t.mem = s.mem ∧
  (∀ j, Hits table policy x y n s j → t.disp.cell j = !s.disp.cell j) ∧
  ((∃ j, Hits table policy x y n s j ∧ s.disp.cell j = true) → num t 0xF = 1) ∧
  ((∀ j, Hits table policy x y n s j → s.disp.cell j = false) → num t 0xF = 0) ∧
  PcAdvances 2 s t

/-- The instructions that may change VF (R21): the flag-setting ones whatever their X, the others only where X is F. -/
def MayWriteVf (i : Instr) : Prop :=
  match i with
  | .addReg _ _ | .subReg _ _ | .shr _ _ | .subn _ _ | .shl _ _ | .drw _ _ _ => True
  | .ldImm x _ | .addImm x _ | .rnd x _ => x = 0xF
  | .ldReg x _ | .orReg x _ | .andReg x _ | .xorReg x _ => x = 0xF
  | .ldFromDelay x | .ldKey x | .loadRegs x => x = 0xF
  | .cls | .ret | .jp _ | .call _ | .seImm _ _ | .sneImm _ _ | .seReg _ _ | .sneReg _ _ => False
  | .ldI _ | .jpV0 _ | .skp _ | .sknp _ | .ldDelay _ | .ldSound _ | .addI _ | .ldGlyph _ | .ldBcd _ | .storeRegs _ => False

/-- The instructions that may change I (R22). -/
def MayWriteIndex (i : Instr) : Prop :=
  (∃ nnn, i = .ldI nnn) ∨ (∃ x, i = .addI x) ∨ (∃ x, i = .ldGlyph x) ∨ (∃ x, i = .storeRegs x) ∨ (∃ x, i = .loadRegs x)

/-- What the instruction `i`, where it completes at `s`, writes to PC, as an exact natural before any reduction modulo 65536
(42_control_flow.md R140 to R147, 40_cycle.md R113). -/
def ExactTarget (i : Instr) (s : State) (n : Nat) : Prop :=
  match i with
  | .jp nnn | .call nnn => n = nnn.toNat
  | .jpV0 nnn => n = nnn.toNat + num s 0x0
  | .ret => ∃ _ : 0 < s.sp.val, n = (s.stack[s.sp.val - 1]'(by omega)).toNat + 2
  | .seImm _ _ | .sneImm _ _ | .seReg _ _ | .sneReg _ _ | .skp _ | .sknp _ => n = s.pc.toNat + 2 ∨ n = s.pc.toNat + 4
  | .cls | .drw _ _ _ | .ldImm _ _ | .addImm _ _ | .ldReg _ _ | .orReg _ _ | .andReg _ _ | .xorReg _ _ => n = s.pc.toNat + 2
  | .addReg _ _ | .subReg _ _ | .shr _ _ | .subn _ _ | .shl _ _ | .rnd _ _ => n = s.pc.toNat + 2
  | .ldI _ | .addI _ | .ldGlyph _ | .ldBcd _ | .storeRegs _ | .loadRegs _ => n = s.pc.toNat + 2
  | .ldFromDelay _ | .ldKey _ | .ldDelay _ | .ldSound _ => n = s.pc.toNat + 2

/-- The k-th decimal digit of V[X], hundreds first, as FX33 stores them (R193). -/
def decimalDigit (s : State) (x : Nibble) (k : Nat) : Nat :=
  if k = 0 then num s x / 100 else if k = 1 then num s x / 10 % 10 else num s x % 10

/-- If `a` is one of the two addresses the next fetch at `t` reads, that fetch's word has `b` for the byte there (R54). -/
def NextFetchReads (t : State) (a b : Nat) : Prop :=
  (a = t.pc.toNat → wordAtPc t / 256 = b) ∧ (a = t.pc.toNat + 1 → wordAtPc t % 256 = b)

end Sys2Proof.Claims

open Sys2Proof Sys2Proof.Machine Sys2Proof.Claims

/-! ### Encoding -/

/-- R84, R85, R87: decoding the word of an instruction gives the instruction back, whatever its operands. -/
def Obligations.DecodeInvertsEncode : Prop := ∀ i : Instr, decode (encode i) = .instr i

/-- R85 with the fields of R81, R82: a word is decoded as an instruction exactly when the opcode map selects that instruction,
with exactly its fields; every other word is rejected with itself (R86). The register field of FX1E is the spec's decision D9
(log entry 16); that a digit of a pattern excludes every other value (5XYn, 9XYn with n not 0) is R85's own marked inference
(log entry 23, DEDUCED). -/
def Obligations.DecodeFollowsOpcodeMap : Prop :=
  (∀ (w : Word) (i : Instr), decode w = .instr i ↔ OpcodeMap w.toNat i) ∧
  (∀ w v : Word, decode w = .unknownOpcode v ↔ v = w ∧ ∀ i, ¬ OpcodeMap w.toNat i)

/-- Words written out bit by bit from the encodings of 30_encoding.md R84, R85, one of each format and some illegal ones.
The register of the FX1E among them is decision D9's (log entry 16); that 5121 and 8018 are illegal is R85's own marked
inference (log entry 23, DEDUCED). -/
def Obligations.SampleWordsDecode : Prop :=
  decode 0b0000000011100000 = .instr .cls ∧
  decode 0b0010001000010000 = .instr (.call 0x210) ∧
  decode 0b0110101000000101 = .instr (.ldImm 0xA 0x05) ∧
  decode 0b1000000100100101 = .instr (.subReg 0x1 0x2) ∧
  decode 0b1101000100101111 = .instr (.drw 0x1 0x2 0xF) ∧
  decode 0b1110010110100001 = .instr (.sknp 0x5) ∧
  decode 0b1111001000011110 = .instr (.addI 0x2) ∧
  decode 0b0000000000000000 = .unknownOpcode 0x0000 ∧
  decode 0b0101000100100001 = .unknownOpcode 0x5121 ∧
  decode 0b1000000000011000 = .unknownOpcode 0x8018

/-! ### The step -/

/-- R54, R104, R107: while running, when the big-endian word at PC decodes to `i`, exec of `i` answers a next state and the
step is that state: where it leaves the engine running the step then ticks both timers once, and otherwise adds nothing. -/
def Obligations.StepRunsDecodedInstruction : Prop :=
  ∀ (s : State) (i : Instr), Fetches s i → ∃ t, exec i s = .next t ∧
    (t.eng = .running →
      step s = .next { t with delay := BitVec.ofNat 8 (t.delay.toNat - 1), sound := BitVec.ofNat 8 (t.sound.toNat - 1) }) ∧
    (t.eng ≠ .running → step s = .next t)

/-- R53, R104 (1), R148 (exact addresses by decision D14, fault entry by D5 to D7): a fetch that would reach beyond 0xFFF
raises OutOfBoundsAccess(memory, max(PC, 0x1000)), without a word in its record (R231, decision D7), and changes nothing
else. -/
def Obligations.FetchBeyondMemoryFaults : Prop :=
  ∀ s : State, s.eng = .running → 0xFFF < s.pc.toNat + 1 →
    transition s = .next
      ({ s with eng := .faulted (.outOfBoundsAccess s.pc none (.memory (max s.pc.toNat 0x1000))) },
       .error (.outOfBoundsAccess s.pc none (.memory (max s.pc.toNat 0x1000))))

/-- R232 (fault entry by decisions D5 to D7): decoding a word that the opcode map does not select raises UnknownOpcode with the
word: the engine does not guess and does not go on. Which words the map leaves out follows R85's own marked inference (log
entry 23, DEDUCED). -/
def Obligations.UnknownOpcodeFaults : Prop :=
  ∀ s : State, s.eng = .running → s.pc.toNat + 1 ≤ 0xFFF → (∀ i, ¬ OpcodeMap (wordAtPc s) i) →
    transition s = .next ({ s with eng := .faulted (.unknownOpcode s.pc (BitVec.ofNat 16 (wordAtPc s))) },
      .error (.unknownOpcode s.pc (BitVec.ofNat 16 (wordAtPc s))))

/-- R239 (Faulted is decision D6's): while Faulted every step returns the same error and changes nothing, and no host
operation but reset leaves it. -/
def Obligations.FaultedLeftOnlyByReset : Prop :=
  ∀ (s : State) (e : FatalError), s.eng = .faulted e →
    transition s = .next (s, .error e) ∧ step s = .next s ∧
    (∀ (a : HostAction) (o o' : Bool) (t : State) (r : HostAnswer),
      a ≠ .reset → act a (.live s o) = some (.live t o', r) → t.eng = .faulted e) ∧
    (∀ o : Bool, ∃ t, act .reset (.live s o) = some (.live t true, .done) ∧ t.eng = .running)

/-- R103, R107, R110 (which key: decision D10): a step while awaiting a key for V[x] changes nothing if none is pressed;
otherwise it writes the lowest pressed key to V[x], advances PC by 2, returns to Running and ticks once. -/
def Obligations.WaitingStepRechecksKeys : Prop :=
  ∀ (s : State) (x : Nibble), s.eng = .awaitingKey x →
    ((∀ k, s.pressed k = false) → transition s = .next (s, .ok false false)) ∧
    (∀ k, s.pressed k = true → (∀ j : Nibble, j.toNat < k.toNat → s.pressed j = false) →
      ∃ t, transition s = .next (t, .ok false (decide (s.sound.toNat = 1))) ∧
        ChangesOnly (fun p => p = .v x ∨ p = .pc ∨ p = .eng ∨ p = .delay ∨ p = .sound) s t ∧
        num t x = k.toNat ∧ PcAdvances 2 s t ∧ t.eng = .running ∧
        t.delay.toNat = s.delay.toNat - 1 ∧ t.sound.toNat = s.sound.toNat - 1)

/-- R100: "each returns immediately with a result": from every state a step answers a next state with a result. -/
def Obligations.EveryStepAnswers : Prop :=
  ∀ s : State, ∃ t r, transition s = .next (t, r) ∧ step s = .next t

/-- R111, R237, R238 (decisions D5, D6): a step that reports an error has changed nothing but `eng`, which records that error;
an error raised in this step records the step's PC. -/
def Obligations.FaultingStepCommitsNothing : Prop :=
  ∀ (s t : State) (e : FatalError), transition s = .next (t, .error e) →
    t = { s with eng := .faulted e } ∧ (s.eng = .running → e.pc = s.pc)

/-- R243: one tick lowers each timer by one, saturating at 0, signals the beep exactly when sound goes from 1 to 0, and changes
nothing else. -/
def Obligations.TickCountsDownBothTimers : Prop :=
  ∀ s : State,
    (tick s).1.delay.toNat = s.delay.toNat - 1 ∧
    (tick s).1.sound.toNat = s.sound.toNat - 1 ∧
    ((tick s).2 = true ↔ s.sound.toNat = 1 ∧ (tick s).1.sound.toNat = 0) ∧
    ChangesOnly (fun p => p = .delay ∨ p = .sound) s (tick s).1

/-- R109 (decision D15): redraw is true exactly when the step executed 00E0 or DXYN, whatever the pixels drawn. -/
def Obligations.RedrawReportsClearAndDraw : Prop :=
  ∀ (s t : State) (redraw beep : Bool), transition s = .next (t, .ok redraw beep) →
    (redraw = true ↔ s.eng = .running ∧
      (fetchDecode s = .instr .cls ∨ ∃ x y n, fetchDecode s = .instr (.drw x y n)))

/-- R110: beep is true exactly when this step's tick moved sound from 1 to 0: sound was 1 after the step's instruction (or
before the step that resolves a key wait) and the step ticked. -/
def Obligations.BeepReportsLastSoundTick : Prop :=
  ∀ (s t : State) (redraw beep : Bool), transition s = .next (t, .ok redraw beep) →
    (beep = true ↔
      (s.eng = .running ∧ ∃ i u, fetchDecode s = .instr i ∧ exec i s = .next u ∧ u.eng = .running ∧
        u.sound.toNat = 1 ∧ t.sound.toNat = 0) ∨
      (∃ x k, s.eng = .awaitingKey x ∧ s.pressed k = true ∧ s.sound.toNat = 1 ∧ t.sound.toNat = 0))

/-! ### Invariants -/

/-- Every step keeps memory in its canonical form, all within the 4096 cells (R53: no access reaches beyond 0xFFF). -/
def Obligations.StepKeepsMemoryCanonical : Prop :=
  ∀ s t : State, MemoryCanonical s → step s = .next t → MemoryCanonical t

/-- R30, R238 (Faulted by decision D6, the wait held in the state by D18): every step keeps the engine state in agreement
with PC: a waiting engine's PC holds its FX0A, and a recorded fault's pc is PC. -/
def Obligations.StepKeepsEngineAgreement : Prop :=
  ∀ s t : State, EngineAgreesWithPc s → step s = .next t → EngineAgreesWithPc t

/-- R23 "no reachable execution wraps" (PC arithmetic by decision D14): every step keeps PC at most 0x10FE and the live stack
entries fetchable; and it writes PC without a wrap: a step that ends running leaves PC at the exact, unreduced target of the
instruction it completed (PC + 2 where it resolved a key wait), and one that does not end running leaves PC alone. -/
def Obligations.StepKeepsPcBounded : Prop :=
  ∀ s t : State, EngineAgreesWithPc s → PcBounded s → step s = .next t →
    PcBounded t ∧
    (s.eng = .running → t.eng = .running → ∃ i, fetchDecode s = .instr i ∧ ExactTarget i s t.pc.toNat) ∧
    (∀ x, s.eng = .awaitingKey x → t.eng = .running → t.pc.toNat = s.pc.toNat + 2) ∧
    (t.eng ≠ .running → t.pc = s.pc)

/-- Every operation of the host that has a move keeps the block sound, from any sound session (R247, R248; the duties are
decision D17's, the interface decision D1's). -/
def Obligations.HostActionKeepsSessionSound : Prop :=
  ∀ (a : HostAction) (h h' : Session) (r : HostAnswer), SessionSound h → act a h = some (h', r) → SessionSound h'

/-- The reset state meets the invariants and has not faulted. PcBounded at reset leans on SP = 0, the spec's decision D2 (log
entry 2), and the session open to a load on its decision D17 (log entry 18). -/
def Obligations.ResetIsSound : Prop :=
  MemoryCanonical State.reset ∧ EngineAgreesWithPc State.reset ∧ PcBounded State.reset ∧ NotFaulted State.reset ∧
    SessionSound (.live State.reset true)

/-! ### Reset and the host interface -/

/-- R270, R272: what a reset leaves, from any state: PC = 0x200, the engine running, the display clear and memory the glyph
table then zeros (the source's); V, I, SP, the stack entries, the timers and the keys all zero (the spec's decision D2; the
glyph bytes are its decision D3 and the parameter GLYPH_TABLE, so the memory clauses speak of every table). -/
def Obligations.ResetValues : Prop :=
  ∀ s : State,
    (∀ (table : Config.GlyphTable) (a : Nat) (h : a < 80), (restart s).mem.read table a = table[a]) ∧
    (∀ (table : Config.GlyphTable) (a : Nat), 80 ≤ a → (restart s).mem.read table a = 0) ∧
    (∀ j, (restart s).disp.cell j = false) ∧
    (restart s).pc.toNat = 0x200 ∧ (restart s).eng = .running ∧
    (∀ x, num (restart s) x = 0) ∧ (restart s).i.toNat = 0 ∧ (restart s).sp.val = 0 ∧
    (∀ j : Fin 16, (restart s).stack[j].toNat = 0) ∧
    (restart s).delay.toNat = 0 ∧ (restart s).sound.toNat = 0 ∧ (∀ k, (restart s).pressed k = false)

/-- R271: reset is idempotent and fully reinitialises: from any block it leaves every part as the reset state has it (but for
the model's own count of draws, log entry 4), and a second reset changes nothing. -/
def Obligations.ResetReinitialisesEverything : Prop :=
  ∀ (s : State) (o : Bool), ∃ t,
    act .reset (.live s o) = some (.live t true, .done) ∧
    ChangesOnly (fun p => p = .draws) State.reset t ∧
    act .reset (.live t true) = some (.live t true, .done)

/-- R236 with the record of R231: a buffer longer than 3584 bytes is answered ProgramTooLarge, and the block and its openness
to a load are unchanged, so another buffer may follow. That the answer carries the buffer's length is R231's record, the spec's
decision D7 (log entry 14); the openness to a load is its decision D17's (log entry 18). -/
def Obligations.OversizedLoadChangesNothing : Prop :=
  ∀ (bytes : List Byte) (s : State), 3584 < bytes.length →
    (∀ table, loadProgram table bytes s = .programTooLarge bytes.length) ∧
    act (.loadProgram bytes) (.live s true) = some (.live s true, .programTooLarge bytes.length)

/-- R60 (an inference of the spec for all but memory): whatever the glyph table, a buffer of at most 3584 bytes is written from
0x200 on, and nothing else changes. -/
def Obligations.LoadWritesAtProgramBase : Prop :=
  ∀ (table : Config.GlyphTable) (bytes : List Byte) (s : State), bytes.length ≤ 3584 → ∃ t,
    loadProgram table bytes s = .loaded t ∧
    (∀ (k : Nat) (h : k < bytes.length), t.mem.read table (0x200 + k) = bytes[k]) ∧
    (∀ a, a < 0x200 ∨ 0x200 + bytes.length ≤ a → t.mem.read table a = s.mem.read table a) ∧
    ChangesOnly (fun p => ∃ a, p = .byte a) s t

/-- R248 (decision D17): before the first reset only reset has a move; loadProgram has one only after a reset, before the first
step and before a successful load; setKey has one exactly for the keys 0 to 15; snapshot returns the 2048 cells and changes
nothing (R247). -/
def Obligations.HostDutiesCloseTheInterface : Prop :=
  (∀ a, a ≠ .reset → act a .beforeReset = none) ∧
  act .reset .beforeReset = some (.live State.reset true, .done) ∧
  (∀ bytes s, act (.loadProgram bytes) (.live s false) = none) ∧
  (∀ bytes s t, loadProgram glyphTable bytes s = .loaded t →
    act (.loadProgram bytes) (.live s true) = some (.live t false, .loaded)) ∧
  (∀ s o, ∃ t r, act .step (.live s o) = some (.live t false, .stepped r) ∧ transition s = .next (t, r)) ∧
  (∀ k p s o, act (.setKey k p) (.live s o) = none ↔ 15 < k) ∧
  (∀ s o, act .snapshot (.live s o) = some (.live s o, .cells (snapshot s)) ∧
    (snapshot s).length = 2048 ∧ ∀ j : CellIx, (snapshot s)[j.val]? = some (s.disp.cell j))

/-- R29, R247 (the operations are decision D1's, the range of setKey decision D17's, the keys at reset decision D2's): no step
and no host operation but setKey and reset changes a key; setKey sets that key to what it is given and changes nothing else;
reset releases every key (R270). -/
def Obligations.OnlySetKeyAndResetChangeKeys : Prop :=
  (∀ (s t : State) (k : Nibble), step s = .next t → t.pressed k = s.pressed k) ∧
  (∀ (a : HostAction) (s t : State) (o o' : Bool) (r : HostAnswer) (k : Nibble),
    a ≠ .reset → (∀ j p, a ≠ .setKey j p) → act a (.live s o) = some (.live t o', r) → t.pressed k = s.pressed k) ∧
  (∀ (s : State) (o : Bool) (k : Nat) (p : Bool), k < 16 → ∃ t,
    act (.setKey k p) (.live s o) = some (.live t o, .done) ∧
    t.pressed (BitVec.ofNat 4 k) = p ∧ ChangesOnly (fun q => q = .key (BitVec.ofNat 4 k)) s t) ∧
  (∀ (s : State) (o : Bool), ∃ t, act .reset (.live s o) = some (.live t true, .done) ∧ ∀ k, t.pressed k = false)

/-! ### Memory -/

/-- R57: whatever the glyph table, a write changes only its cell, a read after it gives the byte written, and repeating the
write is idempotent. -/
def Obligations.WriteChangesOnlyItsCell : Prop :=
  ∀ (table : Config.GlyphTable) (m : Memory) (a : Nat) (b : Byte),
    (m.write table a b).read table a = b ∧
    (∀ a', a' ≠ a → (m.write table a b).read table a' = m.read table a') ∧
    (m.write table a b).write table a b = m.write table a b

/-- R193, R194, with the bounds of R53 (exact addresses by decision D14): a step changes a byte of memory only by executing
FX33 or FX55 at one of the addresses they store to, all within 0xFFF. -/
def Obligations.OnlyStoresWriteMemory : Prop :=
  ∀ (s t : State) (a : Nat), step s = .next t → t.mem.read glyphTable a ≠ s.mem.read glyphTable a →
    a ≤ 0xFFF ∧ s.eng = .running ∧
    ((∃ x, fetchDecode s = .instr (.ldBcd x) ∧ s.i.toNat ≤ a ∧ a ≤ s.i.toNat + 2) ∨
     (∃ x : Nibble, fetchDecode s = .instr (.storeRegs x) ∧ s.i.toNat ≤ a ∧ a ≤ s.i.toNat + x.toNat))

/-- R63, R277 (R63 is an inference of the spec): a store into the instruction stream is seen by the very next fetch: after
FX55 or FX33 the engine runs on at PC + 2, and whatever byte the store put at PC + 2 or PC + 3 is that byte of the word the next
step fetches. -/
def Obligations.NextFetchSeesStoredBytes : Prop :=
  (∀ (s t : State) (x : Nibble), Fetches s (.storeRegs x) → s.i.toNat + x.toNat ≤ 0xFFF → step s = .next t →
    t.eng = .running ∧ t.pc.toNat = s.pc.toNat + 2 ∧
    ∀ r : Nibble, r.toNat ≤ x.toNat → NextFetchReads t (s.i.toNat + r.toNat) (num s r)) ∧
  (∀ (s t : State) (x : Nibble), Fetches s (.ldBcd x) → s.i.toNat + 2 ≤ 0xFFF → step s = .next t →
    t.eng = .running ∧ t.pc.toNat = s.pc.toNat + 2 ∧
    ∀ k, k ≤ 2 → NextFetchReads t (s.i.toNat + k) (decimalDigit s x k))

/-! ### Rules over all instructions -/

/-- R24: a step that raises SP executes 2NNN and one that lowers SP executes 00EE, by one each; only 2NNN changes a stack
entry, the one SP named. -/
def Obligations.OnlyCallAndReturnMoveTheStack : Prop :=
  ∀ s t : State, step s = .next t →
    (s.sp.val < t.sp.val → t.sp.val = s.sp.val + 1 ∧ s.eng = .running ∧ ∃ nnn, fetchDecode s = .instr (.call nnn)) ∧
    (t.sp.val < s.sp.val → t.sp.val + 1 = s.sp.val ∧ s.eng = .running ∧ fetchDecode s = .instr .ret) ∧
    (∀ j : Fin 16, t.stack[j] ≠ s.stack[j] →
      j.val = s.sp.val ∧ s.eng = .running ∧ ∃ nnn, fetchDecode s = .instr (.call nnn))

/-- R21 (its last sentence is an inference of the spec): no step changes VF but one that completes an instruction R21 lists. -/
def Obligations.OnlyListedInstructionsWriteVf : Prop :=
  ∀ s t : State, step s = .next t → t.getV 0xF ≠ s.getV 0xF →
    (s.eng = .running ∧ ∃ i, fetchDecode s = .instr i ∧ MayWriteVf i) ∨ s.eng = .awaitingKey 0xF

/-- R22: no step changes I but one that executes ANNN, FX1E, FX29, FX55 or FX65. -/
def Obligations.OnlyListedInstructionsWriteIndex : Prop :=
  ∀ s t : State, step s = .next t → t.i ≠ s.i →
    s.eng = .running ∧ ∃ i, fetchDecode s = .instr i ∧ MayWriteIndex i

/-- R28 (the layout of the cells is decision D24's): no step changes a display cell but one that executes 00E0 or DXYN. -/
def Obligations.OnlyClearAndDrawWriteDisplay : Prop :=
  ∀ (s t : State) (j : CellIx), step s = .next t → t.disp.cell j ≠ s.disp.cell j →
    s.eng = .running ∧ (fetchDecode s = .instr .cls ∨ ∃ x y n, fetchDecode s = .instr (.drw x y n))

/-- R27: each timer is "monotonically non-increasing except when explicitly set by an instruction": a step that raises one
executed FX15 or FX18. -/
def Obligations.TimersRiseOnlyWhenSet : Prop :=
  ∀ s t : State, step s = .next t →
    (s.delay.toNat < t.delay.toNat → s.eng = .running ∧ ∃ x, fetchDecode s = .instr (.ldDelay x)) ∧
    (s.sound.toNat < t.sound.toNat → s.eng = .running ∧ ∃ x, fetchDecode s = .instr (.ldSound x))

/-! ### Display instructions -/

/-- R120: 00E0 clears every cell, and its step reports a redraw. -/
def Obligations.ClearDisplayZeroesEveryCell : Prop :=
  WordOf 0x00E0 .cls ∧
  (∀ s : State, Completes .cls s (fun p => p = .pc ∨ ∃ j, p = .cell j)
    (fun t => (∀ j, t.disp.cell j = false) ∧ PcAdvances 2 s t)) ∧
  (∀ s : State, Fetches s .cls → ∃ t beep, transition s = .next (t, .ok true beep))

/-- R121, R123, R124 under R125's policies (a parameter, decision D4, log entry 5), with R126 (an inference of the spec: the
targets of one draw are distinct cells): under every glyph table and edge policy, a draw whose rows lie in memory and whose
targets the policy accepts flips exactly the cells its set bits fall on, raises VF exactly on a collision, and changes nothing
else but PC. -/
def Obligations.DrawFlipsExactlyTheHitCells : Prop :=
  ∀ (table : Config.GlyphTable) (policy : Config.EdgePolicy) (x y n : Nibble) (s : State),
    RowsInMemory n s → PolicyAccepts table policy x y n s →
    Drawn table policy x y n s (drawSprite table policy x y n s)

/-- R121, R122 with the spec's choice CLIP (decision D4), the check of all rows (decision D21) and fault entry by decisions D5
to D7: DXYN draws with off-frame pixels discarded, or raises OutOfBoundsAccess(memory) of the lowest address out of range. -/
def Obligations.DrawInstructionClips : Prop :=
  ∀ (x y n : Nibble) (s : State),
    WordOf (0xD000 + x.toNat * 256 + y.toNat * 16 + n.toNat) (.drw x y n) ∧
    (RowsInMemory n s → ∃ t, exec (.drw x y n) s = .next t ∧ Drawn glyphTable .clip x y n s t) ∧
    (¬ RowsInMemory n s →
      Raises (.drw x y n) s (memoryError s (0xD000 + x.toNat * 256 + y.toNat * 16 + n.toNat)))

/-- R125 REJECT (a policy the parameter may take, decision D4; fault entry by decisions D5 to D7): the draw raises
OutOfBoundsAccess(display) of the first target off the frame, rows ascending, then bits ascending, and changes nothing else.
-/
def Obligations.RejectNamesFirstOffFrameTarget : Prop :=
  ∀ (table : Config.GlyphTable) (x y n : Nibble) (s : State) (r b cx cy : Nat),
    RowsInMemory n s → SpriteBit table x y n s r b cx cy → ¬ (cx < 64 ∧ cy < 32) →
    (∀ r' b' cx' cy', SpriteBit table x y n s r' b' cx' cy' → r' < r ∨ (r' = r ∧ b' < b) → cx' < 64 ∧ cy' < 32) →
    drawSprite table .reject x y n s =
      { s with eng := .faulted (.outOfBoundsAccess s.pc
          (some (BitVec.ofNat 16 (0xD000 + x.toNat * 256 + y.toNat * 16 + n.toNat))) (.display cx cy)) }

/-- R127 (an inference of the spec; under its choice CLIP, decision D4): drawing the same sprite at the same place again
restores every cell; the first draw sets VF exactly when a targeted cell was 1, the second exactly when one was 0 before the
first. -/
def Obligations.DrawTwiceRestores : Prop :=
  ∀ (x y n x' y' n' : Nibble) (s t q : State),
    RowsInMemory n s → exec (.drw x y n) s = .next t →
    (∀ j, q.disp.cell j = t.disp.cell j) → RowsInMemory n' q →
    (∀ r b cx cy, SpriteBit glyphTable x' y' n' q r b cx cy ↔ SpriteBit glyphTable x y n s r b cx cy) →
    ∃ u, exec (.drw x' y' n') q = .next u ∧ (∀ j, u.disp.cell j = s.disp.cell j) ∧
      (num t 0xF = 1 ↔ ∃ j, Hits glyphTable .clip x y n s j ∧ s.disp.cell j = true) ∧
      (num u 0xF = 1 ↔ ∃ j, Hits glyphTable .clip x y n s j ∧ s.disp.cell j = false)

/-! ### Control transfer -/

/-- R140 (fault entry by decisions D5 to D7): 00EE pops the return address and goes on 2 past it; with SP = 0 it raises
StackUnderflow and changes nothing else. -/
def Obligations.ReturnPopsAndResumes : Prop :=
  WordOf 0x00EE .ret ∧
  ∀ s : State,
    (∀ h : 0 < s.sp.val, Completes .ret s (fun p => p = .pc ∨ p = .sp) (fun t =>
      t.sp.val = s.sp.val - 1 ∧ t.pc.toNat = ((s.stack[s.sp.val - 1]'(by omega)).toNat + 2) % 65536)) ∧
    (s.sp.val = 0 → Raises .ret s (.stackUnderflow s.pc 0x00EE))

/-- R142 (fault entry by decisions D5 to D7): 2NNN pushes its own address and jumps; with SP = 16 it raises StackOverflow and
changes nothing else. -/
def Obligations.CallPushesItsOwnAddress : Prop :=
  ∀ (nnn : Addr) (s : State),
    WordOf (0x2000 + nnn.toNat) (.call nnn) ∧
    (∀ h : s.sp.val < 16, Completes (.call nnn) s
      (fun p => p = .pc ∨ p = .sp ∨ p = .stackEntry ⟨s.sp.val, h⟩)
      (fun t => t.stack[s.sp.val]'h = s.pc ∧ t.sp.val = s.sp.val + 1 ∧ t.pc.toNat = nnn.toNat)) ∧
    (s.sp.val = 16 → Raises (.call nnn) s (.stackOverflow s.pc (BitVec.ofNat 16 (0x2000 + nnn.toNat))))

/-- R25: a call saves the address of the 2NNN itself, and a return right after it resumes 2 past that, with the stack pointer
as it was before the call. -/
def Obligations.CallThenReturnResumesAfterCall : Prop :=
  ∀ (nnn : Addr) (s : State) (h : s.sp.val < 16), ∃ t u,
    exec (.call nnn) s = .next t ∧ t.stack[s.sp.val]'h = s.pc ∧
    exec .ret t = .next u ∧ PcAdvances 2 s u ∧ u.sp = s.sp ∧
    ChangesOnly (fun p => p = .pc ∨ ∃ j : Fin 16, j.val = s.sp.val ∧ p = .stackEntry j) s u

/-- R141, R143: 1NNN goes to NNN and BNNN to NNN + V0; neither checks the target. -/
def Obligations.JumpsSetPc : Prop :=
  ∀ (nnn : Addr) (s : State),
    WordOf (0x1000 + nnn.toNat) (.jp nnn) ∧
    Completes (.jp nnn) s (fun p => p = .pc) (fun t => t.pc.toNat = nnn.toNat) ∧
    WordOf (0xB000 + nnn.toNat) (.jpV0 nnn) ∧
    Completes (.jpV0 nnn) s (fun p => p = .pc) (fun t => t.pc.toNat = (nnn.toNat + num s 0x0) % 65536)

/-- R144, R145, R146, R147: 3XNN skips when V[X] is NN, 4XNN when it is not, 5XY0 when V[X] is V[Y], 9XY0 when it is not; a
skip goes on by 4, otherwise PC goes on by 2. That 5XYn and 9XYn with n not 0 are unknown opcodes is R85's own marked inference
(log entry 23, DEDUCED). -/
def Obligations.SkipsCompare : Prop :=
  (∀ (x : Nibble) (nn : Byte) (s : State),
    WordOf (0x3000 + x.toNat * 256 + nn.toNat) (.seImm x nn) ∧
    Completes (.seImm x nn) s (fun p => p = .pc)
      (fun t => PcAdvances (if num s x = nn.toNat then 4 else 2) s t) ∧
    WordOf (0x4000 + x.toNat * 256 + nn.toNat) (.sneImm x nn) ∧
    Completes (.sneImm x nn) s (fun p => p = .pc)
      (fun t => PcAdvances (if num s x = nn.toNat then 2 else 4) s t)) ∧
  (∀ (x y : Nibble) (s : State),
    WordOf (0x5000 + x.toNat * 256 + y.toNat * 16) (.seReg x y) ∧
    Completes (.seReg x y) s (fun p => p = .pc)
      (fun t => PcAdvances (if num s x = num s y then 4 else 2) s t) ∧
    WordOf (0x9000 + x.toNat * 256 + y.toNat * 16) (.sneReg x y) ∧
    Completes (.sneReg x y) s (fun p => p = .pc)
      (fun t => PcAdvances (if num s x = num s y then 2 else 4) s t)) ∧
  (∀ (x y n : Nibble), n ≠ 0 →
    (let w : Word := BitVec.ofNat 16 (0x5000 + x.toNat * 256 + y.toNat * 16 + n.toNat); decode w = .unknownOpcode w) ∧
    (let w : Word := BitVec.ofNat 16 (0x9000 + x.toNat * 256 + y.toNat * 16 + n.toNat); decode w = .unknownOpcode w))

/-! ### Register and arithmetic instructions -/

/-- R161, R163: 6XNN loads NN and 8XY0 copies V[Y] into V[X]. -/
def Obligations.LoadsSetRegister : Prop :=
  (∀ (x : Nibble) (nn : Byte) (s : State),
    WordOf (0x6000 + x.toNat * 256 + nn.toNat) (.ldImm x nn) ∧
    Completes (.ldImm x nn) s (fun p => p = .pc ∨ p = .v x) (fun t => t.getV x = nn ∧ PcAdvances 2 s t)) ∧
  (∀ (x y : Nibble) (s : State),
    WordOf (0x8000 + x.toNat * 256 + y.toNat * 16) (.ldReg x y) ∧
    Completes (.ldReg x y) s (fun p => p = .pc ∨ p = .v x) (fun t => t.getV x = s.getV y ∧ PcAdvances 2 s t))

/-- R162: 7XNN adds NN modulo 256 and sets no flag. -/
def Obligations.AddImmediateWrapsWithoutFlag : Prop :=
  ∀ (x : Nibble) (nn : Byte) (s : State),
    WordOf (0x7000 + x.toNat * 256 + nn.toNat) (.addImm x nn) ∧
    Completes (.addImm x nn) s (fun p => p = .pc ∨ p = .v x)
      (fun t => num t x = (num s x + nn.toNat) % 256 ∧ PcAdvances 2 s t)

/-- R164, R165, R166: the bitwise instructions combine V[X] and V[Y] bit by bit and set no flag. -/
def Obligations.BitwiseInstructionsCombineBits : Prop :=
  ∀ (x y : Nibble) (s : State),
    WordOf (0x8001 + x.toNat * 256 + y.toNat * 16) (.orReg x y) ∧
    Completes (.orReg x y) s (fun p => p = .pc ∨ p = .v x) (fun t =>
      (∀ k, k < 8 → (t.getV x).getLsbD k = ((s.getV x).getLsbD k || (s.getV y).getLsbD k)) ∧ PcAdvances 2 s t) ∧
    WordOf (0x8002 + x.toNat * 256 + y.toNat * 16) (.andReg x y) ∧
    Completes (.andReg x y) s (fun p => p = .pc ∨ p = .v x) (fun t =>
      (∀ k, k < 8 → (t.getV x).getLsbD k = ((s.getV x).getLsbD k && (s.getV y).getLsbD k)) ∧ PcAdvances 2 s t) ∧
    WordOf (0x8003 + x.toNat * 256 + y.toNat * 16) (.xorReg x y) ∧
    Completes (.xorReg x y) s (fun p => p = .pc ∨ p = .v x) (fun t =>
      (∀ k, k < 8 → (t.getV x).getLsbD k = ((s.getV x).getLsbD k != (s.getV y).getLsbD k)) ∧ PcAdvances 2 s t)

/-- R167: 8XY4 adds modulo 256 and VF is the carry; with X = F the sum is lost. -/
def Obligations.AddSetsCarry : Prop :=
  ∀ (x y : Nibble) (s : State),
    WordOf (0x8004 + x.toNat * 256 + y.toNat * 16) (.addReg x y) ∧
    Completes (.addReg x y) s (fun p => p = .pc ∨ p = .v x ∨ p = .v 0xF) (fun t =>
      ResultThenFlag x (flagNum (255 < num s x + num s y)) ((num s x + num s y) % 256) t ∧ PcAdvances 2 s t)

/-- R168, R170 with the spec's choice AS_LISTED (decision D8): 8XY5 and 8XY7 write VF = no borrow, then V[X] = the difference
of the registers as that write left them. -/
def Obligations.SubtractsSetNoBorrow : Prop :=
  ∀ (x y : Nibble) (s : State),
    WordOf (0x8005 + x.toNat * 256 + y.toNat * 16) (.subReg x y) ∧
    Completes (.subReg x y) s (fun p => p = .pc ∨ p = .v x ∨ p = .v 0xF) (fun t =>
      let f := flagNum (num s y ≤ num s x)
      FlagThenResult x f ((numAfterFlag s f x + 256 - numAfterFlag s f y) % 256) t ∧ PcAdvances 2 s t) ∧
    WordOf (0x8007 + x.toNat * 256 + y.toNat * 16) (.subn x y) ∧
    Completes (.subn x y) s (fun p => p = .pc ∨ p = .v x ∨ p = .v 0xF) (fun t =>
      let f := flagNum (num s x ≤ num s y)
      FlagThenResult x f ((numAfterFlag s f y + 256 - numAfterFlag s f x) % 256) t ∧ PcAdvances 2 s t)

/-- R169, R171 with the spec's choice AS_LISTED (decision D8): 8XY6 and 8XYE write VF = the bit shifted out of V[X], then shift
V[X] as that write left it; V[Y] is not read. -/
def Obligations.ShiftsSetBitOut : Prop :=
  ∀ (x y : Nibble) (s : State),
    WordOf (0x8006 + x.toNat * 256 + y.toNat * 16) (.shr x y) ∧
    Completes (.shr x y) s (fun p => p = .pc ∨ p = .v x ∨ p = .v 0xF) (fun t =>
      let f := num s x % 2
      FlagThenResult x f (numAfterFlag s f x / 2) t ∧ PcAdvances 2 s t) ∧
    WordOf (0x800E + x.toNat * 256 + y.toNat * 16) (.shl x y) ∧
    Completes (.shl x y) s (fun p => p = .pc ∨ p = .v x ∨ p = .v 0xF) (fun t =>
      let f := num s x / 128
      FlagThenResult x f (numAfterFlag s f x * 2 % 256) t ∧ PcAdvances 2 s t)

/-- R160 (a parameter, decision D8): under FLAG_LAST, the other value it may take, the operands are read first, V[X] is
written, then VF; and when neither operand is VF the two orders give the same state. -/
def Obligations.FlagOrdersDifferOnlyOnVf : Prop :=
  ∀ (x y : Nibble) (s : State),
    ResultThenFlag x (flagNum (num s y ≤ num s x)) ((num s x + 256 - num s y) % 256) (subFlagged .flagLast x y s) ∧
    ResultThenFlag x (flagNum (num s x ≤ num s y)) ((num s y + 256 - num s x) % 256) (subnFlagged .flagLast x y s) ∧
    ResultThenFlag x (num s x % 2) (num s x / 2) (shrFlagged .flagLast x s) ∧
    ResultThenFlag x (num s x / 128) (num s x * 2 % 256) (shlFlagged .flagLast x s) ∧
    (x ≠ 0xF → y ≠ 0xF →
      subFlagged .asListed x y s = subFlagged .flagLast x y s ∧
      subnFlagged .asListed x y s = subnFlagged .flagLast x y s) ∧
    (x ≠ 0xF →
      shrFlagged .asListed x s = shrFlagged .flagLast x s ∧
      shlFlagged .asListed x s = shlFlagged .flagLast x s)

/-- R172: CXNN sets V[X] to the step's random byte AND NN, bit by bit. The byte is the free value of log entry 4, the next of
its draws; the statement holds whatever it is. -/
def Obligations.RandomIsMaskedDraw : Prop :=
  ∀ (x : Nibble) (nn : Byte) (s : State),
    WordOf (0xC000 + x.toNat * 256 + nn.toNat) (.rnd x nn) ∧
    Completes (.rnd x nn) s (fun p => p = .pc ∨ p = .v x ∨ p = .draws) (fun t =>
      (∀ k, k < 8 → (t.getV x).getLsbD k = ((Config.freeByte s.draws).getLsbD k && nn.getLsbD k)) ∧
      t.draws = s.draws + 1 ∧ PcAdvances 2 s t)

/-! ### Index register and memory instructions -/

/-- R190, R192: ANNN sets I to NNN, FX29 to five times the whole byte V[X]. -/
def Obligations.IndexIsSet : Prop :=
  (∀ (nnn : Addr) (s : State),
    WordOf (0xA000 + nnn.toNat) (.ldI nnn) ∧
    Completes (.ldI nnn) s (fun p => p = .pc ∨ p = .i) (fun t => t.i.toNat = nnn.toNat ∧ PcAdvances 2 s t)) ∧
  (∀ (x : Nibble) (s : State),
    WordOf (0xF029 + x.toNat * 256) (.ldGlyph x) ∧
    Completes (.ldGlyph x) s (fun p => p = .pc ∨ p = .i) (fun t => t.i.toNat = num s x * 5 ∧ PcAdvances 2 s t))

/-- R191 (its field by decision D9): FX1E adds V[X] to I modulo 65536, unchecked and without a flag. -/
def Obligations.AddToIndexWraps : Prop :=
  ∀ (x : Nibble) (s : State),
    WordOf (0xF01E + x.toNat * 256) (.addI x) ∧
    Completes (.addI x) s (fun p => p = .pc ∨ p = .i)
      (fun t => t.i.toNat = (s.i.toNat + num s x) % 65536 ∧ PcAdvances 2 s t)

/-- R193 (fault entry by decisions D5 to D7): FX33 stores the decimal digits of V[X] at I, I+1, I+2, I unchanged; beyond
0xFFF it raises OutOfBoundsAccess and writes nothing. -/
def Obligations.StoreDecimalDigits : Prop :=
  ∀ (x : Nibble) (s : State),
    WordOf (0xF033 + x.toNat * 256) (.ldBcd x) ∧
    (s.i.toNat + 2 ≤ 0xFFF → Completes (.ldBcd x) s
      (fun p => p = .pc ∨ ∃ k, k ≤ 2 ∧ p = .byte (s.i.toNat + k)) (fun t =>
        (t.mem.read glyphTable s.i.toNat).toNat = num s x / 100 ∧
        (t.mem.read glyphTable (s.i.toNat + 1)).toNat = num s x / 10 % 10 ∧
        (t.mem.read glyphTable (s.i.toNat + 2)).toNat = num s x % 10 ∧ PcAdvances 2 s t)) ∧
    (0xFFF < s.i.toNat + 2 → Raises (.ldBcd x) s (memoryError s (0xF033 + x.toNat * 256)))

/-- R194 (fault entry by decisions D5 to D7): FX55 stores V0..VX at I and adds X + 1 to I; beyond 0xFFF it raises
OutOfBoundsAccess and writes nothing. -/
def Obligations.StoreRegisterBlock : Prop :=
  ∀ (x : Nibble) (s : State),
    WordOf (0xF055 + x.toNat * 256) (.storeRegs x) ∧
    (s.i.toNat + x.toNat ≤ 0xFFF → Completes (.storeRegs x) s
      (fun p => p = .pc ∨ p = .i ∨ ∃ k, k ≤ x.toNat ∧ p = .byte (s.i.toNat + k)) (fun t =>
        (∀ r : Nibble, r.toNat ≤ x.toNat → t.mem.read glyphTable (s.i.toNat + r.toNat) = s.getV r) ∧
        t.i.toNat = (s.i.toNat + x.toNat + 1) % 65536 ∧ PcAdvances 2 s t)) ∧
    (0xFFF < s.i.toNat + x.toNat → Raises (.storeRegs x) s (memoryError s (0xF055 + x.toNat * 256)))

/-- R195 (fault entry by decisions D5 to D7): FX65 loads V0..VX from I and adds X + 1 to I; beyond 0xFFF it raises
OutOfBoundsAccess and writes no register. -/
def Obligations.LoadRegisterBlock : Prop :=
  ∀ (x : Nibble) (s : State),
    WordOf (0xF065 + x.toNat * 256) (.loadRegs x) ∧
    (s.i.toNat + x.toNat ≤ 0xFFF → Completes (.loadRegs x) s
      (fun p => p = .pc ∨ p = .i ∨ ∃ r : Nibble, r.toNat ≤ x.toNat ∧ p = .v r) (fun t =>
        (∀ r : Nibble, r.toNat ≤ x.toNat → t.getV r = s.mem.read glyphTable (s.i.toNat + r.toNat)) ∧
        t.i.toNat = (s.i.toNat + x.toNat + 1) % 65536 ∧ PcAdvances 2 s t)) ∧
    (0xFFF < s.i.toNat + x.toNat → Raises (.loadRegs x) s (memoryError s (0xF065 + x.toNat * 256)))

/-- R195 "round-trips register values V[0..X] exactly, and both leave I incremented by X+1": FX65 at FX55's starting I, from
any state with the memory FX55 left. -/
def Obligations.StoreThenLoadRoundTrips : Prop :=
  ∀ (x : Nibble) (s t q : State), s.i.toNat + x.toNat ≤ 0xFFF → exec (.storeRegs x) s = .next t →
    (∀ a, q.mem.read glyphTable a = t.mem.read glyphTable a) → q.i = s.i →
    ∃ u, exec (.loadRegs x) q = .next u ∧ u.i = t.i ∧ ∀ r : Nibble, r.toNat ≤ x.toNat → u.getV r = s.getV r

/-! ### Key and timer instructions -/

/-- R210, R211, and R212 for V[X] above 15 (decision D11; fault entry by decisions D5 to D7): EX9E skips when key V[X] is
pressed, EXA1 when it is not; a key index above 15 raises OutOfBoundsAccess(key, V[X]). -/
def Obligations.KeySkipsReadKey : Prop :=
  ∀ (x : Nibble) (s : State),
    WordOf (0xE09E + x.toNat * 256) (.skp x) ∧
    (∀ h : num s x < 16, Completes (.skp x) s (fun p => p = .pc)
      (fun t => PcAdvances (if s.key[num s x]'h = true then 4 else 2) s t)) ∧
    (15 < num s x → Raises (.skp x) s
      (.outOfBoundsAccess s.pc (some (BitVec.ofNat 16 (0xE09E + x.toNat * 256))) (.key (s.getV x)))) ∧
    WordOf (0xE0A1 + x.toNat * 256) (.sknp x) ∧
    (∀ h : num s x < 16, Completes (.sknp x) s (fun p => p = .pc)
      (fun t => PcAdvances (if s.key[num s x]'h = true then 2 else 4) s t)) ∧
    (15 < num s x → Raises (.sknp x) s
      (.outOfBoundsAccess s.pc (some (BitVec.ofNat 16 (0xE0A1 + x.toNat * 256))) (.key (s.getV x))))

/-- R213, R215, R216: FX07 reads the delay timer, FX15 sets it and FX18 sets the sound timer; the tick that ends the step
acts on the value the instruction left. -/
def Obligations.TimerInstructionsReadAndSet : Prop :=
  ∀ (x : Nibble) (s : State),
    WordOf (0xF007 + x.toNat * 256) (.ldFromDelay x) ∧
    Completes (.ldFromDelay x) s (fun p => p = .pc ∨ p = .v x) (fun t => t.getV x = s.delay ∧ PcAdvances 2 s t) ∧
    (Fetches s (.ldFromDelay x) → ∃ t, step s = .next t ∧ t.getV x = s.delay ∧ t.delay.toNat = s.delay.toNat - 1) ∧
    WordOf (0xF015 + x.toNat * 256) (.ldDelay x) ∧
    Completes (.ldDelay x) s (fun p => p = .pc ∨ p = .delay) (fun t => t.delay = s.getV x ∧ PcAdvances 2 s t) ∧
    (Fetches s (.ldDelay x) → ∃ t, step s = .next t ∧ t.delay.toNat = num s x - 1) ∧
    WordOf (0xF018 + x.toNat * 256) (.ldSound x) ∧
    Completes (.ldSound x) s (fun p => p = .pc ∨ p = .sound) (fun t => t.sound = s.getV x ∧ PcAdvances 2 s t) ∧
    (Fetches s (.ldSound x) → ∃ t, transition s = .next (t, .ok false (decide (num s x = 1))) ∧
      t.sound.toNat = num s x - 1)

/-- R214 (the lowest key by decision D10, the level test by D22): FX0A with a key pressed writes the lowest pressed key's index
to V[X] and goes on; with none pressed it leaves PC and enters AwaitingKey(X). -/
def Obligations.KeyWaitTakesLowestKeyOrWaits : Prop :=
  ∀ (x : Nibble) (s : State),
    WordOf (0xF00A + x.toNat * 256) (.ldKey x) ∧
    (∀ k, s.pressed k = true → (∀ j : Nibble, j.toNat < k.toNat → s.pressed j = false) →
      Completes (.ldKey x) s (fun p => p = .pc ∨ p = .v x ∨ p = .eng)
        (fun t => num t x = k.toNat ∧ PcAdvances 2 s t ∧ t.eng = .running)) ∧
    ((∀ k, s.pressed k = false) → exec (.ldKey x) s = .next { s with eng := .awaitingKey x })

/-- R276 (an inference of the spec): a program that sets delay to v > 0 with FX15 and reads it with FX07 in the very next
step reads v - 1. -/
def Obligations.DelayReadAfterSetIsOneLess : Prop :=
  ∀ (s t : State) (x y : Nibble), Fetches s (.ldDelay x) → 0 < num s x → step s = .next t → Fetches t (.ldFromDelay y) →
    ∃ u, step t = .next u ∧ num u y = num s x - 1
end

