-- ==== Sys2Proof/Laws/Memory.lean ====
section
/-! SUPPORT. What the memory operations do (20_memory.md R53, R55, R57): reads after writes, and the canonical form, which every
write within memory keeps. -/

namespace Sys2Proof.Machine

open Sys2Proof.Config

variable {table : GlyphTable}

/-! ### One byte -/

theorem resetByte_glyph {a : Nat} (h : a < 80) : resetByte table a = table[a] := dif_pos h

theorem resetByte_zero {a : Nat} (h : 80 ≤ a) : resetByte table a = 0 := dif_neg (Nat.not_lt.2 h)

theorem Memory.read_nil (a : Nat) : Memory.read [] table a = resetByte table a := rfl

theorem Memory.read_insert_same (m : Memory) (a : Nat) (b : Byte) (h : ∀ c ∈ m, c.1 ≠ a) :
    (Memory.insert m a b).read table a = b := by
  induction m with
  | nil => simp [Memory.insert, Memory.read]
  | cons c rest ih =>
    obtain ⟨c, d⟩ := c
    have hc : a ≠ c := fun e => h (c, d) (by simp) e.symm
    have hr : ∀ p ∈ rest, p.1 ≠ a := fun p hp => h p (by simp [hp])
    unfold Memory.insert
    split
    · simp [Memory.read]
    · simp [Memory.read, hc, ih hr]

theorem Memory.read_insert_other (m : Memory) {a a' : Nat} (b : Byte) (h : a' ≠ a) :
    (Memory.insert m a b).read table a' = m.read table a' := by
  induction m with
  | nil => simp [Memory.insert, Memory.read, h]
  | cons c rest ih =>
    obtain ⟨c, d⟩ := c
    unfold Memory.insert
    split
    · simp [Memory.read, h]
    · simp [Memory.read, ih]

theorem Memory.mem_without {m : Memory} {a : Nat} {c : Host.Cell} : c ∈ m.without a ↔ c ∈ m ∧ c.1 ≠ a := by
  simp [Memory.without]

theorem Memory.read_without_same (m : Memory) (a : Nat) : (m.without a).read table a = resetByte table a := by
  induction m with
  | nil => rfl
  | cons c rest ih =>
    obtain ⟨c, d⟩ := c
    by_cases h : c = a
    · simpa [Memory.without, h] using ih
    · simpa [Memory.without, h, Memory.read, Ne.symm h] using ih

theorem Memory.read_without_other (m : Memory) {a a' : Nat} (h : a' ≠ a) : (m.without a).read table a' = m.read table a' := by
  induction m with
  | nil => rfl
  | cons c rest ih =>
    obtain ⟨c, d⟩ := c
    by_cases hc : c = a
    · subst hc; simpa [Memory.without, Memory.read, h] using ih
    · have : Memory.without ((c, d) :: rest) a = (c, d) :: Memory.without rest a := by simp [Memory.without, hc]
      rw [this, Memory.read, Memory.read, ih]

/-- A read after a write to the same cell gives the byte written. -/
@[simp] theorem Memory.read_write_same (m : Memory) (a : Nat) (b : Byte) : (m.write table a b).read table a = b := by
  unfold Memory.write
  split
  next h => rw [Memory.read_without_same, h]
  next => exact Memory.read_insert_same _ a b (fun c hc => (Memory.mem_without.1 hc).2)

/-- A write changes only its cell. -/
theorem Memory.read_write_other (m : Memory) {a a' : Nat} (b : Byte) (h : a' ≠ a) :
    (m.write table a b).read table a' = m.read table a' := by
  unfold Memory.write
  split
  · exact Memory.read_without_other m h
  · rw [Memory.read_insert_other _ b h, Memory.read_without_other m h]

theorem Memory.read_write (m : Memory) (a a' : Nat) (b : Byte) :
    (m.write table a b).read table a' = if a' = a then b else m.read table a' := by
  split
  next h => rw [h, Memory.read_write_same]
  next h => exact Memory.read_write_other m b h

theorem Memory.without_of_unlisted {m : Memory} {a : Nat} (h : ∀ c ∈ m, c.1 ≠ a) : m.without a = m :=
  List.filter_eq_self.2 (by simpa using h)

theorem Memory.without_insert {m : Memory} {a : Nat} (b : Byte) (h : ∀ c ∈ m, c.1 ≠ a) :
    (m.insert a b).without a = m := by
  induction m with
  | nil => simp [Memory.insert, Memory.without]
  | cons c rest ih =>
    obtain ⟨c, d⟩ := c
    have hr : ∀ p ∈ rest, p.1 ≠ a := fun p hp => h p (by simp [hp])
    have hc : c ≠ a := h (c, d) (by simp)
    unfold Memory.insert
    split
    · have := Memory.without_of_unlisted h
      simpa [Memory.without] using this
    · have := ih hr
      simpa [Memory.without, hc] using this

/-! ### The canonical form -/

theorem Memory.wf_nil : Memory.wf [] table := by simp [Memory.wf]

theorem Memory.wf_without {m : Memory} (h : m.wf table) (a : Nat) : (m.without a).wf table :=
  ⟨h.1.filter _, fun c hc => h.2 c (Memory.mem_without.1 hc).1⟩

theorem Memory.mem_insert {m : Memory} {a : Nat} {b : Byte} {c : Host.Cell} :
    c ∈ Memory.insert m a b ↔ c = (a, b) ∨ c ∈ m := by
  induction m with
  | nil => simp [Memory.insert]
  | cons d rest ih =>
    obtain ⟨d, e⟩ := d
    unfold Memory.insert
    split
    · simp
    · simp [ih]; tauto

theorem Memory.pairwise_insert {m : Memory} {a : Nat} {b : Byte} (h : m.Pairwise (fun c d => c.1 < d.1))
    (ha : ∀ c ∈ m, c.1 ≠ a) : (Memory.insert m a b).Pairwise (fun c d => c.1 < d.1) := by
  induction m with
  | nil => simp [Memory.insert]
  | cons c rest ih =>
    obtain ⟨c, d⟩ := c
    obtain ⟨h1, h2⟩ := List.pairwise_cons.1 h
    have hc : c ≠ a := ha (c, d) (by simp)
    unfold Memory.insert
    split
    next hlt =>
      refine List.pairwise_cons.2 ⟨fun p hp => ?_, h⟩
      rcases List.mem_cons.1 hp with rfl | hp
      · exact hlt
      · exact lt_trans hlt (h1 p hp)
    next hlt =>
      refine List.pairwise_cons.2 ⟨fun p hp => ?_, ih h2 (fun p hp => ha p (by simp [hp]))⟩
      rcases Memory.mem_insert.1 hp with rfl | hp
      · show c < a; omega
      · exact h1 p hp

/-- A write within memory keeps the canonical form. -/
theorem Memory.wf_write {m : Memory} (h : m.wf table) {a : Nat} (ha : a < memSize) (b : Byte) : (m.write table a b).wf table := by
  unfold Memory.write
  split
  · exact Memory.wf_without h a
  next hb =>
    have ho := Memory.wf_without h a
    refine ⟨Memory.pairwise_insert ho.1 (fun c hc => (Memory.mem_without.1 hc).2), fun c hc => ?_⟩
    rcases Memory.mem_insert.1 hc with rfl | hc
    · exact ⟨ha, hb⟩
    · exact ho.2 c hc

/-- Writing a cell twice with one byte is writing it once. -/
theorem Memory.write_write (m : Memory) (a : Nat) (b : Byte) : (m.write table a b).write table a b = m.write table a b := by
  have h := fun c hc => (Memory.mem_without (m := m) (a := a) (c := c).1 hc).2
  by_cases hb : b = resetByte table a
  · simp only [Memory.write, hb, if_true]
    exact Memory.without_of_unlisted h
  · simp only [Memory.write, hb, if_false]
    rw [Memory.without_insert b h]

/-! ### Blocks -/

@[simp] theorem Memory.length_readBlock (m : Memory) (base count : Nat) : (m.readBlock table base count).length = count := by
  simp [Memory.readBlock]

theorem Memory.getElem_readBlock (m : Memory) (base count k : Nat) (h : k < (m.readBlock table base count).length) :
    (m.readBlock table base count)[k] = m.read table (base + k) := by
  simp [Memory.readBlock]

/-- A block write is read back byte by byte, and leaves every other address alone. -/
theorem Memory.read_writeBlock (m : Memory) (base : Nat) (bytes : List Byte) (a : Nat) :
    (m.writeBlock table base bytes).read table a =
      if h : base ≤ a ∧ a < base + bytes.length then bytes[a - base]'(by omega) else m.read table a := by
  induction bytes generalizing m base with
  | nil =>
    have h : ¬ (base ≤ a ∧ a < base + ([] : List Byte).length) := by simp
    rw [dif_neg h]; rfl
  | cons b rest ih =>
    rw [Memory.writeBlock, ih]
    by_cases h1 : a = base
    · subst h1
      simp
    · by_cases h2 : base + 1 ≤ a ∧ a < base + 1 + rest.length
      · rw [dif_pos h2, dif_pos (by simp; omega)]
        obtain ⟨k, rfl⟩ : ∃ k, a = base + (k + 1) := ⟨a - base - 1, by omega⟩
        simp [show base + (k + 1) - (base + 1) = k by omega]
      · rw [dif_neg h2, dif_neg (by simp; omega), Memory.read_write_other _ _ h1]

theorem Memory.read_writeBlock_at (m : Memory) (base : Nat) (bytes : List Byte) (k : Nat) (h : k < bytes.length) :
    (m.writeBlock table base bytes).read table (base + k) = bytes[k] := by
  rw [Memory.read_writeBlock, dif_pos (by omega)]
  simp

theorem Memory.read_writeBlock_other (m : Memory) (base : Nat) (bytes : List Byte) (a : Nat)
    (h : a < base ∨ base + bytes.length ≤ a) : (m.writeBlock table base bytes).read table a = m.read table a := by
  rw [Memory.read_writeBlock, dif_neg (by omega)]

/-- A block write within memory keeps the canonical form. -/
theorem Memory.wf_writeBlock {m : Memory} (h : m.wf table) (base : Nat) (bytes : List Byte)
    (hb : base + bytes.length ≤ memSize) : (m.writeBlock table base bytes).wf table := by
  induction bytes generalizing m base with
  | nil => exact h
  | cons b rest ih =>
    simp only [List.length_cons] at hb
    exact ih (Memory.wf_write h (by omega) b) (base + 1) (by omega)

/-! ### Bounds -/

/-- `firstOutOfRange` passes exactly the accesses within memory. -/
theorem firstOutOfRange_none {base count : Nat} :
    firstOutOfRange base count = none ↔ count = 0 ∨ base + count ≤ memSize := by
  unfold firstOutOfRange; split <;> simp_all

/-- `firstOutOfRange` names the lowest out-of-range address. -/
theorem firstOutOfRange_some {base count a : Nat} :
    firstOutOfRange base count = some a ↔ 0 < count ∧ memSize < base + count ∧ a = max base memSize := by
  unfold firstOutOfRange; split
  next h => simp; omega
  next h => simp only [Option.some.injEq]; omega

end Sys2Proof.Machine
end

