-- ==== Sys2Proof/Laws/Ops.lean ====
section
/-! SUPPORT. One lemma for each shared operation, saying once what it does. -/

namespace Sys2Proof.Machine

open Sys2Proof.Config

/-! ### Registers in order -/

theorem mem_nibbles (x : Nibble) : x ∈ nibbles := by revert x; decide

/-- The registers of a block operand are those up to X. -/
theorem mem_regsUpTo (x r : Nibble) : r ∈ regsUpTo x ↔ r.toNat ≤ x.toNat := by revert x r; decide

theorem length_regsUpTo (x : Nibble) : (regsUpTo x).length = x.toNat + 1 := by revert x; decide

/-- The k-th register of a block operand is Vk. -/
theorem getElem_regsUpTo (x : Nibble) (k : Nat) (h : k < (regsUpTo x).length) : (regsUpTo x)[k] = BitVec.ofNat 4 k := by
  have e : ∀ j : Fin 16, nibbles[j.val]'(j.isLt.trans_eq rfl) = BitVec.ofNat 4 j.val := by decide
  have hk : k < 16 := by rw [length_regsUpTo] at h; omega
  simp only [regsUpTo, List.getElem_take]
  exact e ⟨k, hk⟩

theorem getElem_regsUpTo_self (x r : Nibble) (h : r.toNat < (regsUpTo x).length) : (regsUpTo x)[r.toNat] = r := by
  rw [getElem_regsUpTo]; simp

/-- A block load gives each listed register its byte of memory and leaves the others alone. -/
theorem getV_loadBlock (table : Config.GlyphTable) (s : State) (base : Nat) (regs : List Nibble) (r : Nibble) :
    (loadBlock table s base regs).getV r = if r ∈ regs then s.mem.read table (base + r.toNat) else s.getV r := by
  have h : ∀ (regs : List Nibble) (t : State),
      (regs.foldl (fun t r => t.setV r (s.mem.read table (base + r.toNat))) t).getV r
        = if r ∈ regs then s.mem.read table (base + r.toNat) else t.getV r := by
    intro regs
    induction regs with
    | nil => intro t; simp
    | cons q rest ih =>
      intro t
      rw [List.foldl_cons, ih, State.getV_setV]
      by_cases hr : r ∈ rest
      · simp [hr]
      · by_cases hq : q = r
        · simp [hq]
        · simp [hr, hq, Ne.symm hq]
  exact h regs s

/-- A block load changes nothing but registers. -/
theorem loadBlock_eq (table : Config.GlyphTable) (s : State) (base : Nat) (regs : List Nibble) :
    loadBlock table s base regs = { s with v := (loadBlock table s base regs).v } := by
  have h : ∀ (regs : List Nibble) (t : State),
      regs.foldl (fun t r => t.setV r (s.mem.read table (base + r.toNat))) t
        = { t with v := (regs.foldl (fun t r => t.setV r (s.mem.read table (base + r.toNat))) t).v } := by
    intro regs
    induction regs with
    | nil => intro t; rfl
    | cons q rest ih => intro t; rw [List.foldl_cons, ih]; rfl
  exact h regs s

/-! ### Operations made of one update -/

@[simp] theorem advance_eq (s : State) : advance s = s.setPc (s.pc + 2) := rfl

@[simp] theorem skipIf_eq (c : Bool) (s : State) : skipIf c s = s.setPc (s.pc + if c then 4 else 2) := rfl

@[simp] theorem completeKeyWait_eq (x k : Nibble) (s : State) :
    completeKeyWait x k s = ((s.setV x (k.setWidth 8)).setPc (s.pc + 2)).setEng .running := rfl

/-! ### Operand values -/

@[simp] theorem zextAddr_toNat (a : Addr) : (zextAddr a).toNat = a.toNat := by simp [zextAddr]; omega

@[simp] theorem zextByte_toNat (b : Byte) : (zextByte b).toNat = b.toNat := by simp [zextByte]; omega

theorem glyphAddress_toNat (b : Byte) : (glyphAddress b).toNat = b.toNat * 5 := by
  have := b.isLt
  simp [glyphAddress]; omega

theorem indexAfterBlock_toNat (s : State) (x : Nibble) :
    (indexAfterBlock s x).toNat = (s.i.toNat + x.toNat + 1) % 65536 := by
  have := x.isLt
  simp [indexAfterBlock]; omega

/-- PC arithmetic is modulo 65536 (10_state.md R23). -/
theorem word_add_toNat (a : Word) (k : Nat) :
    (a + BitVec.ofNat 16 k).toNat = (a.toNat + k) % 65536 := by
  rw [BitVec.toNat_add, BitVec.toNat_ofNat]; omega

/-! ### Stack -/

/-- push succeeds exactly when SP < 16, and then writes one entry and SP. -/
theorem push_some {a : Word} {s t : State} :
    push a s = some t ↔ ∃ h : s.sp.val < 16,
      t = { s with stack := s.stack.set s.sp.val a h, sp := ⟨s.sp.val + 1, by omega⟩ } := by
  unfold push
  split
  next h => simp [h, eq_comm]
  next h => simp [h]

theorem push_none {a : Word} {s : State} : push a s = none ↔ s.sp.val = 16 := by
  have := s.sp.isLt
  unfold push
  split <;> simp <;> omega

/-- pop succeeds exactly when SP > 0, and then gives the top entry and lowers SP. -/
theorem pop_some {s t : State} {a : Word} :
    pop s = some (a, t) ↔ ∃ h : 0 < s.sp.val,
      a = s.stack[s.sp.val - 1]'(by omega) ∧ t = { s with sp := ⟨s.sp.val - 1, by omega⟩ } := by
  unfold pop
  split
  next h => simp [h, eq_comm]
  next h => simp [h]

theorem pop_none {s : State} : pop s = none ↔ s.sp.val = 0 := by
  unfold pop
  split <;> simp <;> omega

/-! ### Keys -/

theorem find_lowest {l : List Nibble} (hl : l.Pairwise (fun a b => a.toNat < b.toNat)) (p : Nibble → Bool) (k : Nibble) :
    l.find? p = some k ↔ k ∈ l ∧ p k = true ∧ ∀ j ∈ l, j.toNat < k.toNat → p j = false := by
  induction l with
  | nil => simp
  | cons c rest ih =>
    obtain ⟨hc, hr⟩ := List.pairwise_cons.1 hl
    cases hpc : p c with
    | true =>
      rw [List.find?_cons_of_pos hpc, Option.some.injEq]
      constructor
      · rintro rfl
        refine ⟨by simp, hpc, fun j hj hlt => ?_⟩
        rcases List.mem_cons.1 hj with rfl | hj
        · omega
        · have := hc j hj; omega
      · rintro ⟨hk, _, hlow⟩
        rcases List.mem_cons.1 hk with rfl | hk
        · rfl
        · have := hlow c (by simp) (hc k hk); simp [hpc] at this
    | false =>
      rw [List.find?_cons_of_neg (by simp [hpc]), ih hr]
      constructor
      · rintro ⟨hk, hp, hlow⟩
        refine ⟨by simp [hk], hp, fun j hj hlt => ?_⟩
        rcases List.mem_cons.1 hj with rfl | hj
        · exact hpc
        · exact hlow j hj hlt
      · rintro ⟨hk, hp, hlow⟩
        rcases List.mem_cons.1 hk with rfl | hk
        · simp [hpc] at hp
        · exact ⟨hk, hp, fun j hj => hlow j (by simp [hj])⟩

/-- The lowest pressed key: pressed, and no lower one is. -/
theorem lowestPressed_some {s : State} {k : Nibble} :
    lowestPressed s = some k ↔ s.pressed k = true ∧ ∀ j : Nibble, j.toNat < k.toNat → s.pressed j = false := by
  rw [lowestPressed, find_lowest (by decide)]
  exact ⟨fun h => ⟨h.2.1, fun j => h.2.2 j (mem_nibbles j)⟩, fun h => ⟨mem_nibbles k, h.1, fun j _ => h.2 j⟩⟩

theorem lowestPressed_none {s : State} : lowestPressed s = none ↔ ∀ k : Nibble, s.pressed k = false := by
  unfold lowestPressed
  rw [List.find?_eq_none]
  exact ⟨fun h k => by simpa using h k (mem_nibbles k), fun h k _ => by simp [h k]⟩

/-! ### Timers -/

theorem countDown_toNat (b : Byte) : (countDown b).toNat = b.toNat - 1 := by revert b; decide

/-- A tick counts each timer down and changes nothing else. -/
@[simp] theorem tick_state (s : State) : (tick s).1 = (s.setDelay (countDown s.delay)).setSound (countDown s.sound) := rfl

/-- The beep fires exactly when the tick moves sound from 1 to 0. -/
theorem tick_beep (s : State) : (tick s).2 = decide (s.sound.toNat = 1) := by
  have h : ∀ b : Byte, (decide (0 < b.toNat) && countDown b == 0) = decide (b.toNat = 1) := by decide
  exact h s.sound

/-! ### Errors -/

/-- Fault entry changes only `eng`. -/
@[simp] theorem raise_eq (e : FatalError) (s : State) : raise e s = s.setEng (.faulted e) := rfl

/-! ### Flags -/

theorem flagByte_toNat (f : Bool) : (flagByte f).toNat = if f then 1 else 0 := by cases f <;> rfl

/-- What a flag-setting operation writes: V[x] and VF, nothing else. -/
theorem writeFlagged_eq (order : FlagOrder) (x : Nibble) (result : State → Byte) (flag : State → Bool) (s : State) :
    writeFlagged order x result flag s = { s with v := (writeFlagged order x result flag s).v } := by
  cases order <;> rfl

theorem getV_resultThenFlag (x r : Nibble) (result : State → Byte) (flag : State → Bool) (s : State) :
    (resultThenFlag x result flag s).getV r =
      if vF = r then flagByte (flag s) else if x = r then result s else s.getV r := by
  rw [resultThenFlag, State.getV_setV, State.getV_setV]

theorem getV_flagThenResult (x r : Nibble) (result : State → Byte) (flag : State → Bool) (s : State) :
    (flagThenResult x result flag s).getV r =
      if x = r then result (s.setV vF (flagByte (flag s))) else if vF = r then flagByte (flag s) else s.getV r := by
  rw [flagThenResult, State.getV_setV, State.getV_setV]

end Sys2Proof.Machine
end

