-- ==== Sys2Proof/Laws/Display.lean ====
section
/-! SUPPORT. What the display operations do, cell by cell (41_display.md R121 to R127). -/

namespace Sys2Proof.Machine

open Sys2Proof.Config

/-! ### One cell -/

@[simp] theorem Display.cell_blank (j : CellIx) : Display.blank.cell j = false := by
  simp [Display.blank, Display.cell]

/-- Flipping a cell inverts it and no other (R124). -/
theorem Display.cell_flip (d : Display) (j k : CellIx) :
    (d.flip j).cell k = if j = k then !d.cell k else d.cell k := by
  unfold Display.flip Display.cell
  by_cases hr : j.val / 64 = k.val / 64
  · by_cases hc : j.val % 64 = k.val % 64
    · have : j = k := Fin.ext (by omega)
      subst this
      have : j.val % 64 < 64 := Nat.mod_lt _ (by omega)
      simp [this]
    · have hne : j ≠ k := fun e => hc (by rw [e])
      have off : ((1#64) <<< (j.val % 64)).getLsbD (k.val % 64) = false := by
        rw [BitVec.getLsbD_shiftLeft, BitVec.getLsbD_one]
        by_cases h : k.val % 64 < j.val % 64
        · simp [h]
        · simp; omega
      simp only [hr, Vector.getElem_set_self, hne, if_false, BitVec.getLsbD_xor]
      rw [off, Bool.xor_false]
  · have hne : j ≠ k := fun e => hr (by rw [e])
    simp [hne, Vector.getElem_set_ne _ _ hr]

/-! ### Compositing -/

theorem composite_from (cells : List CellIx) (h : cells.Nodup) (d : Display) (f : Bool) :
    (∀ k, (cells.foldl plot (d, f)).1.cell k = (d.cell k ^^ decide (k ∈ cells))) ∧
    ((cells.foldl plot (d, f)).2 = (f || cells.any d.cell)) := by
  induction cells generalizing d f with
  | nil => simp
  | cons c rest ih =>
    obtain ⟨hc, hr⟩ := List.nodup_cons.1 h
    obtain ⟨h1, h2⟩ := ih hr (d.flip c) (f || d.cell c)
    constructor
    · intro k
      rw [List.foldl_cons, plot, h1 k, Display.cell_flip]
      by_cases hk : c = k
      · subst hk; simp [hc]
      · simp [hk, Ne.symm hk]
    · rw [List.foldl_cons, plot, h2]
      have same : ∀ k ∈ rest, (d.flip c).cell k = d.cell k := fun k hk => by
        rw [Display.cell_flip, if_neg (fun e : c = k => hc (e ▸ hk))]
      have : rest.any (d.flip c).cell = rest.any d.cell := by
        rw [Bool.eq_iff_iff, List.any_eq_true, List.any_eq_true]
        exact exists_congr fun k => and_congr_right fun hk => by rw [same k hk]
      simp [this, Bool.or_assoc]

/-- Compositing distinct cells flips exactly those cells (R124). -/
theorem cell_composite (d : Display) {cells : List CellIx} (h : cells.Nodup) (k : CellIx) :
    (composite d cells).1.cell k = (d.cell k ^^ decide (k ∈ cells)) := (composite_from cells h d false).1 k

/-- The collision flag is raised exactly when a composited cell was 1 (R124). -/
theorem flag_composite (d : Display) {cells : List CellIx} (h : cells.Nodup) :
    (composite d cells).2 = cells.any d.cell := by
  rw [composite, (composite_from cells h d false).2, Bool.false_or]

/-! ### Targets -/

theorem mem_rowTargets {vx cy : Nat} {row : Byte} {p : Nat × Nat} :
    p ∈ rowTargets vx cy row ↔ ∃ b < 8, row.getLsbD (7 - b) = true ∧ p = (vx + b, cy) := by
  simp only [rowTargets, List.mem_map, List.mem_filter, List.mem_range]
  exact ⟨fun ⟨b, ⟨hb, hr⟩, e⟩ => ⟨b, hb, hr, e.symm⟩, fun ⟨b, hb, hr, e⟩ => ⟨b, ⟨hb, hr⟩, e.symm⟩⟩

/-- The targets of a sprite are those of its set bits (R123). -/
theorem mem_spriteTargets {vx cy : Nat} {rows : List Byte} {p : Nat × Nat} :
    p ∈ spriteTargets vx cy rows ↔
      ∃ r, ∃ h : r < rows.length, ∃ b < 8, rows[r].getLsbD (7 - b) = true ∧ p = (vx + b, cy + r) := by
  induction rows generalizing cy with
  | nil => simp [spriteTargets]
  | cons row rest ih =>
    rw [spriteTargets, List.mem_append, mem_rowTargets, ih]
    constructor
    · rintro (⟨b, hb, hr, rfl⟩ | ⟨r, hr, b, hb, hs, rfl⟩)
      · exact ⟨0, by simp, b, hb, by simpa using hr, by simp⟩
      · exact ⟨r + 1, by simpa using hr, b, hb, by simpa using hs, by rw [Nat.add_assoc, Nat.add_comm 1 r]⟩
    · rintro ⟨r, hr, b, hb, hs, rfl⟩
      cases r with
      | zero => exact .inl ⟨b, hb, by simpa using hs, by simp⟩
      | succ r => exact .inr ⟨r, by simpa using hr, b, hb, by simpa using hs, by rw [Nat.add_assoc, Nat.add_comm 1 r]⟩

/-- Distinct set bits have distinct targets. -/
theorem nodup_spriteTargets (vx cy : Nat) (rows : List Byte) : (spriteTargets vx cy rows).Nodup := by
  induction rows generalizing cy with
  | nil => simp [spriteTargets]
  | cons row rest ih =>
    rw [spriteTargets, List.nodup_append]
    refine ⟨?_, ih (cy + 1), ?_⟩
    · refine List.Nodup.map (fun a b e => ?_) (List.Nodup.filter _ List.nodup_range)
      have := congrArg Prod.fst e
      simp only at this
      omega
    · intro p hp q hq e
      obtain ⟨b, _, _, rfl⟩ := mem_rowTargets.1 hp
      obtain ⟨r, _, b', _, _, rfl⟩ := mem_spriteTargets.1 hq
      have := congrArg Prod.snd e
      simp only at this
      omega

/-- Targets come rows ascending, then bits ascending (R125). -/
theorem pairwise_spriteTargets (vx cy : Nat) (rows : List Byte) :
    (spriteTargets vx cy rows).Pairwise (fun p q => p.2 < q.2 ∨ (p.2 = q.2 ∧ p.1 < q.1)) := by
  induction rows generalizing cy with
  | nil => simp [spriteTargets]
  | cons row rest ih =>
    rw [spriteTargets, List.pairwise_append]
    refine ⟨?_, ih (cy + 1), fun p hp q hq => ?_⟩
    · rw [rowTargets, List.pairwise_map]
      exact List.Pairwise.imp (fun h => .inr ⟨rfl, by simpa using h⟩) (List.Pairwise.filter _ List.pairwise_lt_range)
    · obtain ⟨b, _, _, rfl⟩ := mem_rowTargets.1 hp
      obtain ⟨r, _, b', _, _, rfl⟩ := mem_spriteTargets.1 hq
      exact .inl (show cy < cy + 1 + r by omega)

/-! ### Placement -/

theorem place_clip {cx cy : Nat} {j : CellIx} :
    place .clip cx cy = .onCell j ↔ cx < 64 ∧ cy < 32 ∧ j.val = cx + 64 * cy := by
  simp only [place]
  split
  next h => rw [Placement.onCell.injEq, Fin.ext_iff]; exact ⟨fun e => ⟨h.1, h.2, e.symm⟩, fun e => e.2.2.symm⟩
  next h => simp; omega

theorem place_wrap {cx cy : Nat} {j : CellIx} :
    place .wrap cx cy = .onCell j ↔ j.val = cx % 64 + 64 * (cy % 32) := by
  unfold place
  rw [Placement.onCell.injEq, Fin.ext_iff]
  exact eq_comm

theorem place_reject {cx cy : Nat} {j : CellIx} :
    place .reject cx cy = .onCell j ↔ cx < 64 ∧ cy < 32 ∧ j.val = cx + 64 * cy := by
  simp only [place]
  split
  next h => rw [Placement.onCell.injEq, Fin.ext_iff]; exact ⟨fun e => ⟨h.1, h.2, e.symm⟩, fun e => e.2.2.symm⟩
  next h => simp; omega

/-- Only REJECT rejects, and exactly the targets off the frame (R125). -/
theorem place_rejected {policy : EdgePolicy} {cx cy : Nat} :
    place policy cx cy = .rejected ↔ policy = .reject ∧ ¬ (cx < 64 ∧ cy < 32) := by
  cases policy <;> simp only [place]
  · split <;> simp
  · simp
  · split <;> simp_all

theorem mem_landedCells {policy : EdgePolicy} {targets : List (Nat × Nat)} {j : CellIx} :
    j ∈ landedCells policy targets ↔ ∃ p ∈ targets, place policy p.1 p.2 = .onCell j := by
  simp only [landedCells, List.mem_filterMap]
  refine exists_congr fun p => and_congr_right fun _ => ?_
  cases place policy p.1 p.2 <;> simp

/-- The targets of one draw land on distinct cells, whatever the policy (R126). -/
theorem nodup_landedCells (policy : EdgePolicy) (vx cy : Nat) (rows : List Byte) (h : rows.length ≤ 32) :
    (landedCells policy (spriteTargets vx cy rows)).Nodup := by
  rw [List.Nodup, landedCells, List.pairwise_filterMap]
  refine List.Pairwise.imp_of_mem (fun {p q} hp hq hpq j hj k hk => ?_) (nodup_spriteTargets vx cy rows)
  obtain ⟨r, hr, b, hb, _, rfl⟩ := mem_spriteTargets.1 hp
  obtain ⟨r', hr', b', hb', _, rfl⟩ := mem_spriteTargets.1 hq
  rintro rfl
  apply hpq
  have onCell : ∀ {c : Placement} {i : CellIx}, (match c with
      | .onCell j => some j
      | .discarded => none
      | .rejected => none) = some i → c = .onCell i := by
    intro c i; cases c <;> simp
  have h1 := onCell hj
  have h2 := onCell hk
  have : b = b' ∧ r = r' := by
    cases policy with
    | clip => have h1 := place_clip.1 h1; have h2 := place_clip.1 h2; omega
    | wrap => have h1 := place_wrap.1 h1; have h2 := place_wrap.1 h2; omega
    | reject => have h1 := place_reject.1 h1; have h2 := place_reject.1 h2; omega
  rw [this.1, this.2]

/-- Under CLIP and WRAP no draw is rejected. -/
theorem firstRejected_none_of_policy {policy : EdgePolicy} (h : policy ≠ .reject) (targets : List (Nat × Nat)) :
    firstRejected policy targets = none := by
  rw [firstRejected, List.find?_eq_none]
  intro p _ hp
  exact h (place_rejected.1 (beq_iff_eq.1 hp)).1

theorem firstRejected_none {targets : List (Nat × Nat)} :
    firstRejected .reject targets = none ↔ ∀ p ∈ targets, p.1 < 64 ∧ p.2 < 32 := by
  rw [firstRejected, List.find?_eq_none]
  refine forall₂_congr fun p _ => ?_
  rw [beq_iff_eq, place_rejected]
  tauto

/-! ### A draw -/

/-- A draw whose rows lie in memory and whose targets the policy accepts: every cell it lands on flips, VF is the collision
flag, PC advances, and nothing else changes (R121). -/
theorem drawSprite_completes {table : GlyphTable} {policy : EdgePolicy} {x y n : Nibble} {s : State}
    (hb : n.toNat = 0 ∨ s.i.toNat + n.toNat ≤ memSize)
    (hp : firstRejected policy (spriteTargets (s.getV x).toNat (s.getV y).toNat (s.mem.readBlock table s.i.toNat n.toNat)) = none) :
    drawSprite table policy x y n s =
      let out := composite s.disp (landedCells policy
        (spriteTargets (s.getV x).toNat (s.getV y).toNat (s.mem.readBlock table s.i.toNat n.toNat)))
      advance ((s.setDisp out.1).setV vF (flagByte out.2)) := by
  simp only [drawSprite, firstOutOfRange_none.2 hb, hp]

/-- A draw with a row outside memory raises OutOfBoundsAccess(memory) of the lowest such address (R122). -/
theorem drawSprite_outOfMemory {table : GlyphTable} {policy : EdgePolicy} {x y n : Nibble} {s : State}
    (hn : 0 < n.toNat) (hb : memSize < s.i.toNat + n.toNat) :
    drawSprite table policy x y n s = raise (outOfBounds (.drw x y n) (.memory (max s.i.toNat memSize)) s) s := by
  simp only [drawSprite, firstOutOfRange_some.2 ⟨hn, hb, rfl⟩]

/-- A draw with a rejected target raises OutOfBoundsAccess(display) of the first (R125). -/
theorem drawSprite_rejected {table : GlyphTable} {policy : EdgePolicy} {x y n : Nibble} {s : State} {p : Nat × Nat}
    (hb : n.toNat = 0 ∨ s.i.toNat + n.toNat ≤ memSize)
    (hp : firstRejected policy (spriteTargets (s.getV x).toNat (s.getV y).toNat (s.mem.readBlock table s.i.toNat n.toNat)) = some p) :
    drawSprite table policy x y n s = raise (outOfBounds (.drw x y n) (.display p.1 p.2) s) s := by
  simp only [drawSprite, firstOutOfRange_none.2 hb, hp]

end Sys2Proof.Machine
end

