-- ==== Sys2Proof/Laws/Cycle.lean ====
section
/-! SUPPORT. What one instruction and one step can do, said once (40_cycle.md R103 to R111): the case analysis every rule over all
instructions or all steps is proved from. -/

namespace Sys2Proof.Machine

open Sys2Proof.Config

/-- `u` is `s` after the instruction has run to completion: it raised nothing and does not wait. -/
def Completed (i : Instr) (s u : State) : Prop :=
  match i with
  | .cls => u = advance (s.setDisp Display.blank)
  | .ret => ∃ h : 0 < s.sp.val,
      u = { s with sp := ⟨s.sp.val - 1, by omega⟩, pc := s.stack[s.sp.val - 1]'(by omega) + 2 }
  | .jp nnn => u = s.setPc (zextAddr nnn)
  | .call nnn => ∃ h : s.sp.val < 16,
      u = { s with stack := s.stack.set s.sp.val s.pc h, sp := ⟨s.sp.val + 1, by omega⟩, pc := zextAddr nnn }
  | .seImm x nn => u = skipIf (s.getV x == nn) s
  | .sneImm x nn => u = skipIf (s.getV x != nn) s
  | .seReg x y => u = skipIf (s.getV x == s.getV y) s
  | .ldImm x nn => u = advance (s.setV x nn)
  | .addImm x nn => u = advance (s.setV x (s.getV x + nn))
  | .ldReg x y => u = advance (s.setV x (s.getV y))
  | .orReg x y => u = advance (s.setV x (s.getV x ||| s.getV y))
  | .andReg x y => u = advance (s.setV x (s.getV x &&& s.getV y))
  | .xorReg x y => u = advance (s.setV x (s.getV x ^^^ s.getV y))
  | .addReg x y => u = advance (addFlagged x y s)
  | .subReg x y => u = advance (subFlagged flagOrder x y s)
  | .shr x _ => u = advance (shrFlagged flagOrder x s)
  | .subn x y => u = advance (subnFlagged flagOrder x y s)
  | .shl x _ => u = advance (shlFlagged flagOrder x s)
  | .sneReg x y => u = skipIf (s.getV x != s.getV y) s
  | .ldI nnn => u = advance (s.setI (zextAddr nnn))
  | .jpV0 nnn => u = s.setPc (zextAddr nnn + zextByte (s.getV 0))
  | .rnd x nn => u = advance ((s.setDraws (s.draws + 1)).setV x (freeByte s.draws &&& nn))
  | .drw _ _ _ => ∃ d b, u = advance ((s.setDisp d).setV vF b)
  | .skp x => (s.getV x).toNat < 16 ∧ u = skipIf (s.pressed ((s.getV x).setWidth 4) == true) s
  | .sknp x => (s.getV x).toNat < 16 ∧ u = skipIf (s.pressed ((s.getV x).setWidth 4) == false) s
  | .ldFromDelay x => u = advance (s.setV x s.delay)
  | .ldKey x => ∃ k, lowestPressed s = some k ∧ u = completeKeyWait x k s
  | .ldDelay x => u = advance (s.setDelay (s.getV x))
  | .ldSound x => u = advance (s.setSound (s.getV x))
  | .addI x => u = advance (s.setI (s.i + zextByte (s.getV x)))
  | .ldGlyph x => u = advance (s.setI (glyphAddress (s.getV x)))
  | .ldBcd x => s.i.toNat + 3 ≤ memSize ∧
      u = advance (s.setMem (s.mem.writeBlock glyphTable s.i.toNat (decimalDigits (s.getV x))))
  | .storeRegs x => s.i.toNat + (x.toNat + 1) ≤ memSize ∧
      u = advance ((s.setMem (s.mem.writeBlock glyphTable s.i.toNat ((regsUpTo x).map s.getV))).setI (indexAfterBlock s x))
  | .loadRegs x => s.i.toNat + (x.toNat + 1) ≤ memSize ∧
      u = advance ((loadBlock glyphTable s s.i.toNat (regsUpTo x)).setI (indexAfterBlock s x))

/-- What executing one instruction can do: raise an error that records this PC, begin to wait, or complete. -/
theorem exec_cases (i : Instr) (s : State) :
    (∃ e : FatalError, exec i s = .next (raise e s) ∧ e.pc = s.pc) ∨
    (∃ x, i = .ldKey x ∧ lowestPressed s = none ∧ exec i s = .next (s.setEng (.awaitingKey x))) ∨
    (∃ u, exec i s = .next u ∧ Completed i s u) := by
  cases i with
  | ret =>
    simp only [exec, execRet]
    split
    next a t h =>
      obtain ⟨hp, rfl, rfl⟩ := pop_some.1 h
      exact .inr (.inr ⟨_, rfl, hp, rfl⟩)
    next => exact .inl ⟨_, rfl, rfl⟩
  | call nnn =>
    simp only [exec, execCall]
    split
    next t h =>
      obtain ⟨hp, rfl⟩ := push_some.1 h
      exact .inr (.inr ⟨_, rfl, hp, rfl⟩)
    next => exact .inl ⟨_, rfl, rfl⟩
  | drw x y n =>
    simp only [exec, execDrw, drawSprite]
    split
    · exact .inl ⟨_, rfl, rfl⟩
    · split
      · exact .inl ⟨_, rfl, rfl⟩
      · exact .inr (.inr ⟨_, rfl, _, _, rfl⟩)
  | skp x =>
    simp only [exec, execSkp, skipOnKey]
    split
    · exact .inl ⟨_, rfl, rfl⟩
    next h => exact .inr (.inr ⟨_, rfl, by omega, rfl⟩)
  | sknp x =>
    simp only [exec, execSknp, skipOnKey]
    split
    · exact .inl ⟨_, rfl, rfl⟩
    next h => exact .inr (.inr ⟨_, rfl, by omega, rfl⟩)
  | ldKey x =>
    simp only [exec, execLdKey]
    split
    next k h => exact .inr (.inr ⟨_, rfl, k, h, rfl⟩)
    next h => exact .inr (.inl ⟨x, rfl, h, rfl⟩)
  | ldBcd x =>
    simp only [exec, execLdBcd]
    split
    · exact .inl ⟨_, rfl, rfl⟩
    next h => exact .inr (.inr ⟨_, rfl, by have := firstOutOfRange_none.1 h; omega, rfl⟩)
  | storeRegs x =>
    simp only [exec, execStoreRegs]
    split
    · exact .inl ⟨_, rfl, rfl⟩
    next h => exact .inr (.inr ⟨_, rfl, by have := firstOutOfRange_none.1 h; omega, rfl⟩)
  | loadRegs x =>
    simp only [exec, execLoadRegs]
    split
    · exact .inl ⟨_, rfl, rfl⟩
    next h => exact .inr (.inr ⟨_, rfl, by have := firstOutOfRange_none.1 h; omega, rfl⟩)
  | _ => exact .inr (.inr ⟨_, rfl, rfl⟩)

/-- A completed instruction leaves the engine as it was, but that FX0A sets it running. -/
theorem Completed.eng {i : Instr} {s u : State} (h : Completed i s u) : u.eng = s.eng ∨ u.eng = .running := by
  cases i with
  | addReg x y => subst h; exact .inl rfl
  | subReg x y => subst h; exact .inl rfl
  | shr x y => subst h; exact .inl rfl
  | subn x y => subst h; exact .inl rfl
  | shl x y => subst h; exact .inl rfl
  | ret => obtain ⟨_, rfl⟩ := h; exact .inl rfl
  | call => obtain ⟨_, rfl⟩ := h; exact .inl rfl
  | drw => obtain ⟨_, _, rfl⟩ := h; exact .inl rfl
  | skp => obtain ⟨_, rfl⟩ := h; exact .inl rfl
  | sknp => obtain ⟨_, rfl⟩ := h; exact .inl rfl
  | ldKey => obtain ⟨_, _, rfl⟩ := h; exact .inr rfl
  | ldBcd => obtain ⟨_, rfl⟩ := h; exact .inl rfl
  | storeRegs => obtain ⟨_, rfl⟩ := h; exact .inl rfl
  | loadRegs =>
    obtain ⟨_, rfl⟩ := h
    exact .inl (by rw [loadBlock_eq]; rfl)
  | _ => subst h; exact .inl rfl

/-! ### Fetch -/

/-- Fetch and decode give an instruction exactly when both bytes lie in memory and their word decodes to it. -/
theorem fetchDecode_instr {s : State} {i : Instr} :
    fetchDecode s = .instr i ↔ s.pc.toNat + 2 ≤ memSize ∧ decode (fetchWord glyphTable s) = .instr i := by
  unfold fetchDecode
  split
  next a h =>
    have := firstOutOfRange_some.1 h
    simp; omega
  next h =>
    have := firstOutOfRange_none.1 h
    have hb : s.pc.toNat + 2 ≤ memSize := by omega
    split <;> simp_all

theorem fetchDecode_raised_pc {s : State} {e : FatalError} (h : fetchDecode s = .raised e) : e.pc = s.pc := by
  unfold fetchDecode at h
  split at h
  · cases h; rfl
  · split at h
    · cases h
    · cases h; rfl

/-- What a step fetches depends on PC and memory alone. -/
theorem fetchDecode_congr {s t : State} (hp : t.pc = s.pc) (hm : t.mem = s.mem) : fetchDecode t = fetchDecode s := by
  unfold fetchDecode fetchWord
  rw [hp, hm]

/-! ### The step -/

/-- The ways a step can go, each with its state and result (R102 to R111). -/
inductive Stepped (s : State) : State → StepResult → Prop where
  | stuck (e : FatalError) (eng : s.eng = .faulted e) : Stepped s s (.error e)
  | waiting (x : Nibble) (eng : s.eng = .awaitingKey x) (none_pressed : lowestPressed s = none) :
      Stepped s s (.ok false false)
  | resumed (x k : Nibble) (eng : s.eng = .awaitingKey x) (lowest : lowestPressed s = some k) :
      Stepped s (tick (completeKeyWait x k s)).1 (.ok false (decide (s.sound.toNat = 1)))
  | raised (e : FatalError) (eng : s.eng = .running) (pc : e.pc = s.pc) : Stepped s (raise e s) (.error e)
  | blocked (x : Nibble) (eng : s.eng = .running) (fetched : fetchDecode s = .instr (.ldKey x))
      (none_pressed : lowestPressed s = none) : Stepped s (s.setEng (.awaitingKey x)) (.ok false false)
  | completed (i : Instr) (u : State) (eng : s.eng = .running) (fetched : fetchDecode s = .instr i)
      (executed : exec i s = .next u) (done : Completed i s u) (running : u.eng = .running) :
      Stepped s (tick u).1 (.ok (redraws i) (decide (u.sound.toNat = 1)))

theorem finish_running {t : State} (h : t.eng = .running) (r : Bool) :
    finish r t = ((tick t).1, .ok r (decide (t.sound.toNat = 1))) := by
  simp only [finish, h, tick_beep]

/-- A running step whose instruction leaves the engine running: exec, then the tick (R104). -/
theorem transition_of_exec {s u : State} {i : Instr} (he : s.eng = .running) (hf : fetchDecode s = .instr i)
    (hx : exec i s = .next u) (hr : u.eng = .running) :
    transition s = .next ((tick u).1, .ok (redraws i) (decide (u.sound.toNat = 1))) := by
  simp only [transition, he, runInstruction, hf, hx, finish_running hr]

/-- An instruction laid by `withFetchWord` is the one the next step fetches (log entry 7). -/
theorem fetchDecode_withFetchWord {s : State} {nbits w : Nat} {i : Instr} (h : decodeTableWord nbits w = some i) :
    (s.withFetchWord nbits w).eng = .running ∧ fetchDecode (s.withFetchWord nbits w) = .instr i := by
  refine ⟨rfl, fetchDecode_instr.2 ?_⟩
  have hd : decode (wordOfBytes (tableHi nbits w) (tableLo nbits w)) = .instr i := by
    unfold decodeTableWord decodeBytes at h
    split at h
    next hw => cases h; exact hw
    next => cases h
  have hread : fetchWord glyphTable (s.withFetchWord nbits w) = wordOfBytes (tableHi nbits w) (tableLo nbits w) := by
    simp only [fetchWord, State.withFetchWord, placeAtPc, Memory.writeBlock, Memory.read_write_same]
    rw [Memory.read_write_other _ _ (by omega), Memory.read_write_same]
  rw [hread]
  refine ⟨?_, hd⟩
  simp only [State.withFetchWord, placeAtPc]
  split
  · decide
  next hn => have := firstOutOfRange_none.1 hn; omega

/-- Every step goes one of these ways. -/
theorem transition_stepped (s : State) : ∃ t r, transition s = .next (t, r) ∧ Stepped s t r := by
  unfold transition
  split
  next e h => exact ⟨_, _, rfl, .stuck e h⟩
  next x h =>
    unfold recheckKeys
    split
    next hk => exact ⟨_, _, rfl, .waiting x h hk⟩
    next k hk =>
      rw [finish_running rfl]
      exact ⟨_, _, rfl, .resumed x k h hk⟩
  next h =>
    unfold runInstruction
    split
    next e hf => exact ⟨_, _, rfl, .raised e h (fetchDecode_raised_pc hf)⟩
    next i hf =>
      rcases exec_cases i s with ⟨e, hx, hp⟩ | ⟨x, rfl, hk, hx⟩ | ⟨u, hx, hc⟩
      · rw [hx]; exact ⟨_, _, rfl, .raised e h hp⟩
      · rw [hx]; exact ⟨_, _, rfl, .blocked x h hf hk⟩
      · have hr : u.eng = .running := hc.eng.elim (fun e => e.trans h) id
        rw [hx]
        simp only [finish_running hr]
        exact ⟨_, _, rfl, .completed i u h hf hx hc hr⟩

/-- The inversion lemma of a transition. -/
theorem Stepped.of_transition {s t : State} {r : StepResult} (h : transition s = .next (t, r)) : Stepped s t r := by
  obtain ⟨t', r', h', hs⟩ := transition_stepped s
  rw [h] at h'
  cases h'
  exact hs

/-- The inversion lemma of a step. -/
theorem Stepped.of_step {s t : State} (h : step s = .next t) : ∃ r, Stepped s t r := by
  obtain ⟨t', r, h', hs⟩ := transition_stepped s
  rw [step, h'] at h
  cases h
  exact ⟨r, hs⟩

end Sys2Proof.Machine
end

