-- ==== Sys2Proof/Laws/Decode.lean ====
section
/-! SUPPORT. Fields of packed words and packed fields of words (30_encoding.md R81, R84): the facts a round trip or an opcode
map is proved from. -/

namespace Sys2Proof

/-! ### Words as numbers -/

theorem toNat_packXYN (o x y n : Nibble) :
    (packXYN o x y n).toNat = o.toNat * 4096 + x.toNat * 256 + y.toNat * 16 + n.toNat := by
  rw [packXYN, BitVec.toNat_cast, BitVec.toNat_append, BitVec.toNat_append, BitVec.toNat_append,
    ← Nat.shiftLeft_add_eq_or_of_lt n.isLt, ← Nat.shiftLeft_add_eq_or_of_lt y.isLt, ← Nat.shiftLeft_add_eq_or_of_lt x.isLt]
  simp only [Nat.shiftLeft_eq]
  omega

theorem toNat_packXNN (o x : Nibble) (nn : Byte) :
    (packXNN o x nn).toNat = o.toNat * 4096 + x.toNat * 256 + nn.toNat := by
  rw [packXNN, BitVec.toNat_cast, BitVec.toNat_append, BitVec.toNat_append,
    ← Nat.shiftLeft_add_eq_or_of_lt nn.isLt, ← Nat.shiftLeft_add_eq_or_of_lt x.isLt]
  simp only [Nat.shiftLeft_eq]
  omega

theorem toNat_packNNN (o : Nibble) (nnn : Addr) : (packNNN o nnn).toNat = o.toNat * 4096 + nnn.toNat := by
  rw [packNNN, BitVec.toNat_cast, BitVec.toNat_append, ← Nat.shiftLeft_add_eq_or_of_lt nnn.isLt]
  simp only [Nat.shiftLeft_eq]

theorem toNat_fieldO (w : Word) : (fieldO w).toNat = w.toNat / 4096 := by
  have h := w.isLt
  have e : (fieldO w).toNat = w.toNat / 2 ^ 12 % 2 ^ 4 := by
    rw [fieldO, BitVec.extractLsb'_toNat, Nat.shiftRight_eq_div_pow]
  omega

theorem toNat_fieldX (w : Word) : (fieldX w).toNat = w.toNat / 256 % 16 := by
  simp [fieldX, BitVec.extractLsb'_toNat, Nat.shiftRight_eq_div_pow]

theorem toNat_fieldY (w : Word) : (fieldY w).toNat = w.toNat / 16 % 16 := by
  simp [fieldY, BitVec.extractLsb'_toNat, Nat.shiftRight_eq_div_pow]

theorem toNat_fieldN (w : Word) : (fieldN w).toNat = w.toNat % 16 := by
  simp [fieldN, BitVec.extractLsb'_toNat]

theorem toNat_fieldNN (w : Word) : (fieldNN w).toNat = w.toNat % 256 := by
  simp [fieldNN, BitVec.extractLsb'_toNat]

theorem toNat_fieldNNN (w : Word) : (fieldNNN w).toNat = w.toNat % 4096 := by
  simp [fieldNNN, BitVec.extractLsb'_toNat]

theorem toNat_wordOfBytes (hi lo : Byte) : (wordOfBytes hi lo).toNat = hi.toNat * 256 + lo.toNat := by
  have := hi.isLt
  have := lo.isLt
  simp only [wordOfBytes, BitVec.toNat_ofNat]
  omega

/-! ### The fields of a packed word -/

theorem fieldO_packXYN (o x y n : Nibble) : fieldO (packXYN o x y n) = o := by
  apply BitVec.eq_of_toNat_eq; rw [toNat_fieldO, toNat_packXYN]; omega

theorem fieldX_packXYN (o x y n : Nibble) : fieldX (packXYN o x y n) = x := by
  apply BitVec.eq_of_toNat_eq; rw [toNat_fieldX, toNat_packXYN]; omega

theorem fieldY_packXYN (o x y n : Nibble) : fieldY (packXYN o x y n) = y := by
  apply BitVec.eq_of_toNat_eq; rw [toNat_fieldY, toNat_packXYN]; omega

theorem fieldN_packXYN (o x y n : Nibble) : fieldN (packXYN o x y n) = n := by
  apply BitVec.eq_of_toNat_eq; rw [toNat_fieldN, toNat_packXYN]; omega

theorem fieldO_packXNN (o x : Nibble) (nn : Byte) : fieldO (packXNN o x nn) = o := by
  apply BitVec.eq_of_toNat_eq; rw [toNat_fieldO, toNat_packXNN]; omega

theorem fieldX_packXNN (o x : Nibble) (nn : Byte) : fieldX (packXNN o x nn) = x := by
  apply BitVec.eq_of_toNat_eq; rw [toNat_fieldX, toNat_packXNN]; omega

theorem fieldNN_packXNN (o x : Nibble) (nn : Byte) : fieldNN (packXNN o x nn) = nn := by
  apply BitVec.eq_of_toNat_eq; rw [toNat_fieldNN, toNat_packXNN]; omega

theorem fieldO_packNNN (o : Nibble) (nnn : Addr) : fieldO (packNNN o nnn) = o := by
  apply BitVec.eq_of_toNat_eq; rw [toNat_fieldO, toNat_packNNN]; omega

theorem fieldNNN_packNNN (o : Nibble) (nnn : Addr) : fieldNNN (packNNN o nnn) = nnn := by
  apply BitVec.eq_of_toNat_eq; rw [toNat_fieldNNN, toNat_packNNN]; omega

/-! ### Packed words under a packed mask -/

theorem packXYN_and (o x y n o' x' y' n' : Nibble) :
    packXYN o x y n &&& packXYN o' x' y' n' = packXYN (o &&& o') (x &&& x') (y &&& y') (n &&& n') := by
  simp only [packXYN, ← BitVec.and_append, BitVec.cast_eq]

theorem packXNN_and (o x o' x' : Nibble) (nn nn' : Byte) :
    packXNN o x nn &&& packXNN o' x' nn' = packXNN (o &&& o') (x &&& x') (nn &&& nn') := by
  simp only [packXNN, ← BitVec.and_append, BitVec.cast_eq]

theorem packNNN_and (o o' : Nibble) (nnn nnn' : Addr) :
    packNNN o nnn &&& packNNN o' nnn' = packNNN (o &&& o') (nnn &&& nnn') := by
  simp only [packNNN, ← BitVec.and_append, BitVec.cast_eq]

/-! ### A word from its fields -/

theorem packXYN_fields (w : Word) : packXYN (fieldO w) (fieldX w) (fieldY w) (fieldN w) = w := by
  apply BitVec.eq_of_toNat_eq
  rw [toNat_packXYN, toNat_fieldO, toNat_fieldX, toNat_fieldY, toNat_fieldN]
  omega

theorem packXNN_fields (w : Word) : packXNN (fieldO w) (fieldX w) (fieldNN w) = w := by
  apply BitVec.eq_of_toNat_eq
  rw [toNat_packXNN, toNat_fieldO, toNat_fieldX, toNat_fieldNN]
  omega

theorem packNNN_fields (w : Word) : packNNN (fieldO w) (fieldNNN w) = w := by
  apply BitVec.eq_of_toNat_eq
  rw [toNat_packNNN, toNat_fieldO, toNat_fieldNNN]
  omega

/-! ### Every decoded word is the encoding of what it decodes to -/

theorem encode_of_decodeGroup0 {w : Word} {i : Instr} (h : decodeGroup0 w = .instr i) : encode i = w := by
  unfold decodeGroup0 at h
  split_ifs at h with h1 h2
  · cases h; exact h1.symm
  · cases h; exact h2.symm

theorem encode_of_decodeGroup8 {w : Word} {i : Instr} (ho : fieldO w = 8) (h : decodeGroup8 w = .instr i) :
    encode i = w := by
  have e := packXYN_fields w
  rw [ho] at e
  unfold decodeGroup8 at h
  dsimp only at h
  split_ifs at h with h1 h2 h3 h4 h5 h6 h7 h8 h9
  · cases h; rw [h1] at e; exact e
  · cases h; rw [h2] at e; exact e
  · cases h; rw [h3] at e; exact e
  · cases h; rw [h4] at e; exact e
  · cases h; rw [h5] at e; exact e
  · cases h; rw [h6] at e; exact e
  · cases h; rw [h7] at e; exact e
  · cases h; rw [h8] at e; exact e
  · cases h; rw [h9] at e; exact e

theorem encode_of_decodeGroupE {w : Word} {i : Instr} (ho : fieldO w = 0xE) (h : decodeGroupE w = .instr i) :
    encode i = w := by
  have e := packXNN_fields w
  rw [ho] at e
  unfold decodeGroupE at h
  dsimp only at h
  split_ifs at h with h1 h2
  · cases h; rw [h1] at e; exact e
  · cases h; rw [h2] at e; exact e

theorem encode_of_decodeGroupF {w : Word} {i : Instr} (ho : fieldO w = 0xF) (h : decodeGroupF w = .instr i) :
    encode i = w := by
  have e := packXNN_fields w
  rw [ho] at e
  unfold decodeGroupF at h
  dsimp only at h
  split_ifs at h with h1 h2 h3 h4 h5 h6 h7 h8 h9
  · cases h; rw [h1] at e; exact e
  · cases h; rw [h2] at e; exact e
  · cases h; rw [h3] at e; exact e
  · cases h; rw [h4] at e; exact e
  · cases h; rw [h5] at e; exact e
  · cases h; rw [h6] at e; exact e
  · cases h; rw [h7] at e; exact e
  · cases h; rw [h8] at e; exact e
  · cases h; rw [h9] at e; exact e

/-! ### The opcode map, group by group (R85) -/

theorem decode_group0 {w : Word} (h : fieldO w = 0x0) :
    decode w = decodeGroup0 w := by
  unfold decode; rw [h]; rfl

theorem decode_group1 {w : Word} (h : fieldO w = 0x1) :
    decode w = .instr (.jp (fieldNNN w)) := by
  unfold decode; rw [h]; rfl

theorem decode_group2 {w : Word} (h : fieldO w = 0x2) :
    decode w = .instr (.call (fieldNNN w)) := by
  unfold decode; rw [h]; rfl

theorem decode_group3 {w : Word} (h : fieldO w = 0x3) :
    decode w = .instr (.seImm (fieldX w) (fieldNN w)) := by
  unfold decode; rw [h]; rfl

theorem decode_group4 {w : Word} (h : fieldO w = 0x4) :
    decode w = .instr (.sneImm (fieldX w) (fieldNN w)) := by
  unfold decode; rw [h]; rfl

theorem decode_group5 {w : Word} (h : fieldO w = 0x5) :
    decode w = if fieldN w = 0x0 then .instr (.seReg (fieldX w) (fieldY w)) else .unknownOpcode w := by
  unfold decode; rw [h]; rfl

theorem decode_group6 {w : Word} (h : fieldO w = 0x6) :
    decode w = .instr (.ldImm (fieldX w) (fieldNN w)) := by
  unfold decode; rw [h]; rfl

theorem decode_group7 {w : Word} (h : fieldO w = 0x7) :
    decode w = .instr (.addImm (fieldX w) (fieldNN w)) := by
  unfold decode; rw [h]; rfl

theorem decode_group8 {w : Word} (h : fieldO w = 0x8) :
    decode w = decodeGroup8 w := by
  unfold decode; rw [h]; rfl

theorem decode_group9 {w : Word} (h : fieldO w = 0x9) :
    decode w = if fieldN w = 0x0 then .instr (.sneReg (fieldX w) (fieldY w)) else .unknownOpcode w := by
  unfold decode; rw [h]; rfl

theorem decode_groupA {w : Word} (h : fieldO w = 0xA) :
    decode w = .instr (.ldI (fieldNNN w)) := by
  unfold decode; rw [h]; rfl

theorem decode_groupB {w : Word} (h : fieldO w = 0xB) :
    decode w = .instr (.jpV0 (fieldNNN w)) := by
  unfold decode; rw [h]; rfl

theorem decode_groupC {w : Word} (h : fieldO w = 0xC) :
    decode w = .instr (.rnd (fieldX w) (fieldNN w)) := by
  unfold decode; rw [h]; rfl

theorem decode_groupD {w : Word} (h : fieldO w = 0xD) :
    decode w = .instr (.drw (fieldX w) (fieldY w) (fieldN w)) := by
  unfold decode; rw [h]; rfl

theorem decode_groupE {w : Word} (h : fieldO w = 0xE) :
    decode w = decodeGroupE w := by
  unfold decode; rw [h]; rfl

theorem decode_groupF {w : Word} (h : fieldO w = 0xF) :
    decode w = decodeGroupF w := by
  unfold decode; rw [h]; rfl

theorem nibble_cases (o : Nibble) : o = 0x0 ∨ o = 0x1 ∨ o = 0x2 ∨ o = 0x3 ∨ o = 0x4 ∨ o = 0x5 ∨ o = 0x6 ∨ o = 0x7 ∨
    o = 0x8 ∨ o = 0x9 ∨ o = 0xA ∨ o = 0xB ∨ o = 0xC ∨ o = 0xD ∨ o = 0xE ∨ o = 0xF := by revert o; decide

/-- A legal word has one meaning: the word of the instruction it decodes to is the word itself. -/
theorem encode_of_decode {w : Word} {i : Instr} (h : decode w = .instr i) : encode i = w := by
  have e1 := packXNN_fields w
  have e2 := packXYN_fields w
  have e3 := packNNN_fields w
  rcases nibble_cases (fieldO w) with
    o | o | o | o | o | o | o | o | o | o | o | o | o | o | o | o
  · rw [decode_group0 o] at h; exact encode_of_decodeGroup0 h
  · rw [decode_group1 o] at h; cases h; rw [encode, ← o]; exact e3
  · rw [decode_group2 o] at h; cases h; rw [encode, ← o]; exact e3
  · rw [decode_group3 o] at h; cases h; rw [encode, ← o]; exact e1
  · rw [decode_group4 o] at h; cases h; rw [encode, ← o]; exact e1
  · rw [decode_group5 o] at h
    split at h
    next n => cases h; rw [o, n] at e2; exact e2
    next => cases h
  · rw [decode_group6 o] at h; cases h; rw [encode, ← o]; exact e1
  · rw [decode_group7 o] at h; cases h; rw [encode, ← o]; exact e1
  · rw [decode_group8 o] at h; exact encode_of_decodeGroup8 o h
  · rw [decode_group9 o] at h
    split at h
    next n => cases h; rw [o, n] at e2; exact e2
    next => cases h
  · rw [decode_groupA o] at h; cases h; rw [encode, ← o]; exact e3
  · rw [decode_groupB o] at h; cases h; rw [encode, ← o]; exact e3
  · rw [decode_groupC o] at h; cases h; rw [encode, ← o]; exact e1
  · rw [decode_groupD o] at h; cases h; rw [encode, ← o]; exact e2
  · rw [decode_groupE o] at h; exact encode_of_decodeGroupE o h
  · rw [decode_groupF o] at h; exact encode_of_decodeGroupF o h

theorem unknownOpcode_of_decodeGroup8 {w v : Word} (h : decodeGroup8 w = .unknownOpcode v) : v = w := by
  unfold decodeGroup8 at h
  dsimp only at h
  split_ifs at h
  cases h; rfl

theorem unknownOpcode_of_decodeGroupF {w v : Word} (h : decodeGroupF w = .unknownOpcode v) : v = w := by
  unfold decodeGroupF at h
  dsimp only at h
  split_ifs at h
  cases h; rfl

/-- A rejected word is reported unchanged. -/
theorem unknownOpcode_of_decode {w v : Word} (h : decode w = .unknownOpcode v) : v = w := by
  rcases nibble_cases (fieldO w) with
    o | o | o | o | o | o | o | o | o | o | o | o | o | o | o | o
  · rw [decode_group0 o] at h
    unfold decodeGroup0 at h
    split_ifs at h
    cases h; rfl
  · rw [decode_group1 o] at h; cases h
  · rw [decode_group2 o] at h; cases h
  · rw [decode_group3 o] at h; cases h
  · rw [decode_group4 o] at h; cases h
  · rw [decode_group5 o] at h; split at h <;> cases h; rfl
  · rw [decode_group6 o] at h; cases h
  · rw [decode_group7 o] at h; cases h
  · rw [decode_group8 o] at h; exact unknownOpcode_of_decodeGroup8 h
  · rw [decode_group9 o] at h; split at h <;> cases h; rfl
  · rw [decode_groupA o] at h; cases h
  · rw [decode_groupB o] at h; cases h
  · rw [decode_groupC o] at h; cases h
  · rw [decode_groupD o] at h; cases h
  · rw [decode_groupE o] at h
    unfold decodeGroupE at h
    dsimp only at h
    split_ifs at h
    cases h; rfl
  · rw [decode_groupF o] at h; exact unknownOpcode_of_decodeGroupF h

end Sys2Proof
end

