-- ==== Sys2Proof/Laws/Frame.lean ====
section
/-! SUPPORT. Frames built update by update: what a state reached by the named updates leaves unchanged (Safety.lean
`ChangesOnly`). -/

namespace Sys2Proof

open Sys2Proof.Machine

variable {w : Part → Prop} {s t : State}

theorem ChangesOnly.refl (s : State) : ChangesOnly w s s := fun p _ => by cases p <;> rfl

theorem Same.trans {p : Part} {u : State} (h : Same p s t) (h' : Same p t u) : Same p s u := by
  cases p <;> exact Eq.trans h' h

theorem ChangesOnly.trans {u : State} (h : ChangesOnly w s t) (h' : ChangesOnly w t u) : ChangesOnly w s u :=
  fun p hp => (h p hp).trans (h' p hp)

theorem ChangesOnly.mono {w' : Part → Prop} (h : ChangesOnly w s t) (hw : ∀ p, w p → w' p) : ChangesOnly w' s t :=
  fun p hp => h p (fun hq => hp (hw p hq))

/-- One update after another: an update that keeps every part but those of `w` extends a frame. -/
theorem ChangesOnly.step {u : State} (h : ChangesOnly w s t) (h' : ∀ p, ¬ w p → Same p t u) : ChangesOnly w s u :=
  h.trans h'

theorem ChangesOnly.setV (h : ChangesOnly w s t) (x : Nibble) (b : Byte) (hx : w (.v x)) :
    ChangesOnly w s (t.setV x b) := h.step fun p hp => by
  cases p with
  | v y => exact State.getV_setV_other t b (fun e => hp (e ▸ hx))
  | _ => rfl

theorem ChangesOnly.setI (h : ChangesOnly w s t) (a : Word) (hx : w .i) : ChangesOnly w s (t.setI a) :=
  h.step fun p hp => by
    cases p with
    | i => exact absurd hx hp
    | _ => rfl

theorem ChangesOnly.setPc (h : ChangesOnly w s t) (a : Word) (hx : w .pc) : ChangesOnly w s (t.setPc a) :=
  h.step fun p hp => by
    cases p with
    | pc => exact absurd hx hp
    | _ => rfl

theorem ChangesOnly.setDelay (h : ChangesOnly w s t) (b : Byte) (hx : w .delay) : ChangesOnly w s (t.setDelay b) :=
  h.step fun p hp => by
    cases p with
    | delay => exact absurd hx hp
    | _ => rfl

theorem ChangesOnly.setSound (h : ChangesOnly w s t) (b : Byte) (hx : w .sound) : ChangesOnly w s (t.setSound b) :=
  h.step fun p hp => by
    cases p with
    | sound => exact absurd hx hp
    | _ => rfl

theorem ChangesOnly.setEng (h : ChangesOnly w s t) (e : Engine) (hx : w .eng) : ChangesOnly w s (t.setEng e) :=
  h.step fun p hp => by
    cases p with
    | eng => exact absurd hx hp
    | _ => rfl

theorem ChangesOnly.setDraws (h : ChangesOnly w s t) (n : Nat) (hx : w .draws) : ChangesOnly w s (t.setDraws n) :=
  h.step fun p hp => by
    cases p with
    | draws => exact absurd hx hp
    | _ => rfl

theorem ChangesOnly.setDisp (h : ChangesOnly w s t) (d : Display) (hx : ∀ j, ¬ w (.cell j) → d.cell j = t.disp.cell j) :
    ChangesOnly w s (t.setDisp d) :=
  h.step fun p hp => by
    cases p with
    | cell j => exact hx j hp
    | _ => rfl

theorem ChangesOnly.setMem (h : ChangesOnly w s t) (m : Memory)
    (hx : ∀ a, ¬ w (.byte a) → m.read glyphTable a = t.mem.read glyphTable a) :
    ChangesOnly w s (t.setMem m) :=
  h.step fun p hp => by
    cases p with
    | byte a => exact hx a hp
    | _ => rfl

/-- A change of registers alone. -/
theorem ChangesOnly.ofRegisters (h : t = { s with v := t.v }) (hx : ∀ x, ¬ w (.v x) → t.getV x = s.getV x) :
    ChangesOnly w s t := fun p hp => by
  cases p with
  | v x => exact hx x hp
  | _ => rw [h]; rfl

end Sys2Proof
end

