-- ==== Sys2Proof/Laws/PerInstr.lean ====
section
/-! SUPPORT. Per-instruction facts about the instruction as syntax: the encoded word lies in the opcode-table row of its
instruction (30_encoding.md R85), for every value of its operands. -/

namespace Sys2Proof.Laws.InItsRow

/-- The word of `i` has the bits its row of the opcode table fixes. -/
def Statement (i : Instr) : Prop := i.row.selects (encode i) = true

/-! ### One lemma per kind of row -/

theorem of_F000_XNN (r : OpcodeRow) (o x : Nibble) (nn : Byte) (hm : r.mask = packXNN 0xF 0 0)
    (hv : packXNN o 0 0 = r.value) : r.selects (packXNN o x nn) = true := by
  rw [OpcodeRow.selects, hm, packXNN_and, beq_iff_eq, ← hv, show o &&& 0xF = o from BitVec.and_allOnes]
  simp

theorem of_F000_XYN (r : OpcodeRow) (o x y n : Nibble) (hm : r.mask = packXYN 0xF 0 0 0)
    (hv : packXYN o 0 0 0 = r.value) : r.selects (packXYN o x y n) = true := by
  rw [OpcodeRow.selects, hm, packXYN_and, beq_iff_eq, ← hv, show o &&& 0xF = o from BitVec.and_allOnes]
  simp

theorem of_F000_NNN (r : OpcodeRow) (o : Nibble) (nnn : Addr) (hm : r.mask = packNNN 0xF 0)
    (hv : packNNN o 0 = r.value) : r.selects (packNNN o nnn) = true := by
  rw [OpcodeRow.selects, hm, packNNN_and, beq_iff_eq, ← hv, show o &&& 0xF = o from BitVec.and_allOnes]
  simp

theorem of_F00F (r : OpcodeRow) (o x y n : Nibble) (hm : r.mask = packXYN 0xF 0 0 0xF)
    (hv : packXYN o 0 0 n = r.value) : r.selects (packXYN o x y n) = true := by
  rw [OpcodeRow.selects, hm, packXYN_and, beq_iff_eq, ← hv, show o &&& 0xF = o from BitVec.and_allOnes,
    show n &&& 0xF = n from BitVec.and_allOnes]
  simp

theorem of_F0FF (r : OpcodeRow) (o x : Nibble) (nn : Byte) (hm : r.mask = packXNN 0xF 0 0xFF)
    (hv : packXNN o 0 nn = r.value) : r.selects (packXNN o x nn) = true := by
  rw [OpcodeRow.selects, hm, packXNN_and, beq_iff_eq, ← hv, show o &&& 0xF = o from BitVec.and_allOnes,
    show nn &&& 0xFF = nn from BitVec.and_allOnes]
  simp

/-! ### The instructions -/

theorem cls : Statement (.cls) := by unfold Statement; decide

theorem ret : Statement (.ret) := by unfold Statement; decide

theorem jp (nnn : Addr) : Statement (.jp nnn) := of_F000_NNN _ _ _ rfl rfl

theorem call (nnn : Addr) : Statement (.call nnn) := of_F000_NNN _ _ _ rfl rfl

theorem seImm (x : Nibble) (nn : Byte) : Statement (.seImm x nn) := of_F000_XNN _ _ _ _ rfl rfl

theorem sneImm (x : Nibble) (nn : Byte) : Statement (.sneImm x nn) := of_F000_XNN _ _ _ _ rfl rfl

theorem seReg (x : Nibble) (y : Nibble) : Statement (.seReg x y) := of_F00F _ _ _ _ _ rfl rfl

theorem ldImm (x : Nibble) (nn : Byte) : Statement (.ldImm x nn) := of_F000_XNN _ _ _ _ rfl rfl

theorem addImm (x : Nibble) (nn : Byte) : Statement (.addImm x nn) := of_F000_XNN _ _ _ _ rfl rfl

theorem ldReg (x : Nibble) (y : Nibble) : Statement (.ldReg x y) := of_F00F _ _ _ _ _ rfl rfl

theorem orReg (x : Nibble) (y : Nibble) : Statement (.orReg x y) := of_F00F _ _ _ _ _ rfl rfl

theorem andReg (x : Nibble) (y : Nibble) : Statement (.andReg x y) := of_F00F _ _ _ _ _ rfl rfl

theorem xorReg (x : Nibble) (y : Nibble) : Statement (.xorReg x y) := of_F00F _ _ _ _ _ rfl rfl

theorem addReg (x : Nibble) (y : Nibble) : Statement (.addReg x y) := of_F00F _ _ _ _ _ rfl rfl

theorem subReg (x : Nibble) (y : Nibble) : Statement (.subReg x y) := of_F00F _ _ _ _ _ rfl rfl

theorem shr (x : Nibble) (y : Nibble) : Statement (.shr x y) := of_F00F _ _ _ _ _ rfl rfl

theorem subn (x : Nibble) (y : Nibble) : Statement (.subn x y) := of_F00F _ _ _ _ _ rfl rfl

theorem shl (x : Nibble) (y : Nibble) : Statement (.shl x y) := of_F00F _ _ _ _ _ rfl rfl

theorem sneReg (x : Nibble) (y : Nibble) : Statement (.sneReg x y) := of_F00F _ _ _ _ _ rfl rfl

theorem ldI (nnn : Addr) : Statement (.ldI nnn) := of_F000_NNN _ _ _ rfl rfl

theorem jpV0 (nnn : Addr) : Statement (.jpV0 nnn) := of_F000_NNN _ _ _ rfl rfl

theorem rnd (x : Nibble) (nn : Byte) : Statement (.rnd x nn) := of_F000_XNN _ _ _ _ rfl rfl

theorem drw (x : Nibble) (y : Nibble) (n : Nibble) : Statement (.drw x y n) := of_F000_XYN _ _ _ _ _ rfl rfl

theorem skp (x : Nibble) : Statement (.skp x) := of_F0FF _ _ _ _ rfl rfl

theorem sknp (x : Nibble) : Statement (.sknp x) := of_F0FF _ _ _ _ rfl rfl

theorem ldFromDelay (x : Nibble) : Statement (.ldFromDelay x) := of_F0FF _ _ _ _ rfl rfl

theorem ldKey (x : Nibble) : Statement (.ldKey x) := of_F0FF _ _ _ _ rfl rfl

theorem ldDelay (x : Nibble) : Statement (.ldDelay x) := of_F0FF _ _ _ _ rfl rfl

theorem ldSound (x : Nibble) : Statement (.ldSound x) := of_F0FF _ _ _ _ rfl rfl

theorem addI (x : Nibble) : Statement (.addI x) := of_F0FF _ _ _ _ rfl rfl

theorem ldGlyph (x : Nibble) : Statement (.ldGlyph x) := of_F0FF _ _ _ _ rfl rfl

theorem ldBcd (x : Nibble) : Statement (.ldBcd x) := of_F0FF _ _ _ _ rfl rfl

theorem storeRegs (x : Nibble) : Statement (.storeRegs x) := of_F0FF _ _ _ _ rfl rfl

theorem loadRegs (x : Nibble) : Statement (.loadRegs x) := of_F0FF _ _ _ _ rfl rfl

end Sys2Proof.Laws.InItsRow
end

