-- ==== Sys2Proof/Tests/Slice0.lean ====
section
/-! SUPPORT. Small tests of the model against spec/, and a witness for the hypotheses of every statement. Expected results are
those of 95_test_vectors.md (the vector is named) or are worked out by hand from the rule named. -/

namespace Sys2Proof.Tests

open Sys2Proof Sys2Proof.Machine Sys2Proof.Claims Sys2Proof.Config

/-! ### Helpers -/

/-- The reset state with the word `w` at PC. -/
def fresh (w : Nat) : State := State.reset.withFetchWord 16 w

/-- `fresh` with some registers set. -/
def withRegs (w : Nat) (regs : List (Nibble × Byte)) : State := regs.foldl (fun s r => s.setV r.1 r.2) (fresh w)

/-- One byte of memory set. -/
def poke (a : Nat) (b : Byte) (s : State) : State := s.setMem (s.mem.write glyphTable a b)

/-- Some display cells set. -/
def light (cells : List (Nat × Nat)) (s : State) : State :=
  s.setDisp (cells.foldl (fun d c => d.flip (Fin.ofNat 2048 (c.1 + 64 * c.2))) s.disp)

/-- The stack pointer set. -/
def atSp (n : Fin 17) (s : State) : State := { s with sp := n }

/-- Some keys pressed. -/
def press (keys : List Nibble) (s : State) : State := keys.foldl (fun s k => setKey k true s) s

/-- The state one step leaves. -/
def after (s : State) : State :=
  match transition s with
  | .next p => p.1
  | .fault _ => s
  | .refused _ => s

/-- The result of one step. -/
def result (s : State) : Option StepResult :=
  match transition s with
  | .next p => some p.2
  | .fault _ => none
  | .refused _ => none

/-- The state an instruction leaves. -/
def done (i : Instr) (s : State) : State :=
  match exec i s with
  | .next t => t
  | .fault _ => s
  | .refused _ => s

/-- The columns of the set cells of a row. -/
def litInRow (s : State) (cy : Nat) : List Nat :=
  (List.range 64).filter (fun cx => s.disp.cell (Fin.ofNat 2048 (cx + 64 * cy)))

/-- A register pair's values, and PC. -/
def look (x y : Nibble) (s : State) : Byte × Byte × Word := (s.getV x, s.getV y, s.pc)

/-! ### Words: well-formed and ill-formed (WellFormed.lean) -/

/-- 0NNN other than 00E0, 00EE (TD2, TD3, TD4). -/
theorem test_legalWord_group0 :
    legalWord 0x0123 = false ∧ legalWord 0x00E1 = false ∧ legalWord 0x00EF = false ∧ legalWord 0x00E0 = true :=
  by decide

/-- 5XYN needs N = 0 (TD6). -/
theorem test_legalWord_group5 :
    legalWord 0x5121 = false ∧ legalWord 0x5120 = true := by decide

/-- 8XYN has no N = 8, F (TD7, TD8). -/
theorem test_legalWord_group8 :
    legalWord 0x8018 = false ∧ legalWord 0x801F = false ∧ legalWord 0x801E = true := by decide

/-- 9XYN needs N = 0 (TD9). -/
theorem test_legalWord_group9 :
    legalWord 0x9121 = false ∧ legalWord 0x9120 = true := by decide

/-- EXNN has only 9E, A1 (TD10, TD11). -/
theorem test_legalWord_groupE :
    legalWord 0xE000 = false ∧ legalWord 0xE09F = false ∧ legalWord 0xE0A1 = true := by decide

/-- FXNN has nine selectors (TD12, TD13, TD14). -/
theorem test_legalWord_groupF :
    legalWord 0xF000 = false ∧ legalWord 0xF01F = false ∧ legalWord 0xF0FF = false ∧ legalWord 0xF01E = true :=
  by decide

/-- 34 rows (R88), none of two rows selecting one word: where two masks agree the values differ. -/
theorem test_opcodeTable_rows :
    opcodeTable.length = 34 ∧
      opcodeTable.Pairwise (fun r r' => r.value &&& r'.mask &&& r.mask ≠ r'.value &&& r.mask &&& r'.mask) :=
  by decide

/-! ### Decoding, one word of every instruction written out from its encoding (30_encoding.md R84, R85) -/

/-- R84, R85. -/
theorem test_decode_control :
    decode 0b0000000011100000 = .instr .cls ∧
      decode 0b0000000011101110 = .instr .ret ∧
      decode 0b0001101010111100 = .instr (.jp 0xABC) ∧
      decode 0b0010001000010000 = .instr (.call 0x210) ∧
      decode 0b0011010000000101 = .instr (.seImm 0x4 0x05) ∧
      decode 0b0100001000010001 = .instr (.sneImm 0x2 0x11) ∧
      decode 0b0101000100100000 = .instr (.seReg 0x1 0x2) ∧
      decode 0b1001000100100000 = .instr (.sneReg 0x1 0x2) ∧
      decode 0b1011001100000000 = .instr (.jpV0 0x300) := by decide

/-- The same words from the encoder. -/
theorem test_encode_control :
    encode .cls = 0b0000000011100000 ∧
      encode .ret = 0b0000000011101110 ∧
      encode (.jp 0xABC) = 0b0001101010111100 ∧
      encode (.call 0x210) = 0b0010001000010000 ∧
      encode (.seImm 0x4 0x05) = 0b0011010000000101 ∧
      encode (.sneImm 0x2 0x11) = 0b0100001000010001 ∧
      encode (.seReg 0x1 0x2) = 0b0101000100100000 ∧
      encode (.sneReg 0x1 0x2) = 0b1001000100100000 ∧
      encode (.jpV0 0x300) = 0b1011001100000000 := by decide

/-- R84, R85. -/
theorem test_decode_alu :
    decode 0b0110101000000101 = .instr (.ldImm 0xA 0x05) ∧
      decode 0b0111101000000011 = .instr (.addImm 0xA 0x03) ∧
      decode 0b1000000100100000 = .instr (.ldReg 0x1 0x2) ∧
      decode 0b1000000100100001 = .instr (.orReg 0x1 0x2) ∧
      decode 0b1000000100100010 = .instr (.andReg 0x1 0x2) ∧
      decode 0b1000000100100011 = .instr (.xorReg 0x1 0x2) ∧
      decode 0b1000000100100100 = .instr (.addReg 0x1 0x2) ∧
      decode 0b1000000100100101 = .instr (.subReg 0x1 0x2) := by decide

/-- The same words from the encoder. -/
theorem test_encode_alu :
    encode (.ldImm 0xA 0x05) = 0b0110101000000101 ∧
      encode (.addImm 0xA 0x03) = 0b0111101000000011 ∧
      encode (.ldReg 0x1 0x2) = 0b1000000100100000 ∧
      encode (.orReg 0x1 0x2) = 0b1000000100100001 ∧
      encode (.andReg 0x1 0x2) = 0b1000000100100010 ∧
      encode (.xorReg 0x1 0x2) = 0b1000000100100011 ∧
      encode (.addReg 0x1 0x2) = 0b1000000100100100 ∧
      encode (.subReg 0x1 0x2) = 0b1000000100100101 := by decide

/-- R84, R85. -/
theorem test_decode_alu_shifts :
    decode 0b1000000100100110 = .instr (.shr 0x1 0x2) ∧
      decode 0b1000000100100111 = .instr (.subn 0x1 0x2) ∧
      decode 0b1000000100101110 = .instr (.shl 0x1 0x2) ∧
      decode 0b1100001100001111 = .instr (.rnd 0x3 0x0F) := by decide

/-- The same words from the encoder. -/
theorem test_encode_alu_shifts :
    encode (.shr 0x1 0x2) = 0b1000000100100110 ∧
      encode (.subn 0x1 0x2) = 0b1000000100100111 ∧
      encode (.shl 0x1 0x2) = 0b1000000100101110 ∧
      encode (.rnd 0x3 0x0F) = 0b1100001100001111 := by decide

/-- R84, R85. -/
theorem test_decode_index :
    decode 0b1010000100100011 = .instr (.ldI 0x123) ∧
      decode 0b1111001000011110 = .instr (.addI 0x2) ∧
      decode 0b1111000100101001 = .instr (.ldGlyph 0x1) ∧
      decode 0b1111101000110011 = .instr (.ldBcd 0xA) ∧
      decode 0b1111001001010101 = .instr (.storeRegs 0x2) ∧
      decode 0b1111001001100101 = .instr (.loadRegs 0x2) := by decide

/-- The same words from the encoder. -/
theorem test_encode_index :
    encode (.ldI 0x123) = 0b1010000100100011 ∧
      encode (.addI 0x2) = 0b1111001000011110 ∧
      encode (.ldGlyph 0x1) = 0b1111000100101001 ∧
      encode (.ldBcd 0xA) = 0b1111101000110011 ∧
      encode (.storeRegs 0x2) = 0b1111001001010101 ∧
      encode (.loadRegs 0x2) = 0b1111001001100101 := by decide

/-- R84, R85. -/
theorem test_decode_display :
    decode 0b1101000100101111 = .instr (.drw 0x1 0x2 0xF) := by decide

/-- The same words from the encoder. -/
theorem test_encode_display :
    encode (.drw 0x1 0x2 0xF) = 0b1101000100101111 := by decide

/-- R84, R85. -/
theorem test_decode_keys_timers :
    decode 0b1110010110011110 = .instr (.skp 0x5) ∧
      decode 0b1110010110100001 = .instr (.sknp 0x5) ∧
      decode 0b1111010000000111 = .instr (.ldFromDelay 0x4) ∧
      decode 0b1111001100001010 = .instr (.ldKey 0x3) ∧
      decode 0b1111001100010101 = .instr (.ldDelay 0x3) ∧
      decode 0b1111000100011000 = .instr (.ldSound 0x1) := by decide

/-- The same words from the encoder. -/
theorem test_encode_keys_timers :
    encode (.skp 0x5) = 0b1110010110011110 ∧
      encode (.sknp 0x5) = 0b1110010110100001 ∧
      encode (.ldFromDelay 0x4) = 0b1111010000000111 ∧
      encode (.ldKey 0x3) = 0b1111001100001010 ∧
      encode (.ldDelay 0x3) = 0b1111001100010101 ∧
      encode (.ldSound 0x1) = 0b1111000100011000 := by decide

/-- R87: 8XY6 and 8XYE with any Y. -/
theorem test_decode_ignores_y_of_shifts :
    decode 0x8036 = .instr (.shr 0 3) ∧ decode 0x80FE = .instr (.shl 0 0xF) := by decide

/-- R54, R80: the table's bits 15..8 are the first byte; an illegal word is rejected. -/
theorem test_decodeTableWord :
    decodeTableWord 16 0xD12F = some (.drw 1 2 0xF) ∧ decodeTableWord 16 0x5121 = none := by decide

/-! ### Fetch and the cycle -/

/-- TF2: the word at 0xFFE executes. -/
theorem test_fetch_last_word :
    look 0 1 (after ((State.reset.setPc 0xFFE).withFetchWord 16 0x6001)) = (0x01, 0, 0x1000) := by decide

/-- TF3: OutOfBoundsAccess of memory at 0x1000. -/
theorem test_fetch_straddling_end :
    result (State.reset.setPc 0xFFF) = some (.error (.outOfBoundsAccess 0xFFF none (.memory 0x1000))) := by decide

/-- TF5: an odd PC fetches 6123. -/
theorem test_fetch_odd :
    look 1 0 (after (poke 0x202 0x23 (poke 0x201 0x61 (State.reset.setPc 0x201)))) = (0x23, 0, 0x203) := by decide

/-- TF6. -/
theorem test_faulted_is_sticky :
    result ((fresh 0x6001).setEng (.faulted (.stackUnderflow 0x200 0x00EE))) = some (.error (.stackUnderflow 0x200 0x00EE)) :=
  by decide

/-- TS5. -/
theorem test_unknown_ticks_nothing :
    (after (((fresh 0x0000).setDelay 3).setSound 3)).delay = 3 ∧ result (fresh 0x0000) = some (.error (.unknownOpcode 0x200 0x0000)) :=
  by decide

/-- TK15, TS6: sound 1 to 0 beeps, 2 to 1 does not. -/
theorem test_beep_on_last_tick :
    result ((fresh 0x6000).setSound 1) = some (.ok false true) ∧ result ((fresh 0x1200).setSound 2) = some (.ok false false) :=
  by decide

/-- The laid word is the one fetched (log entry 7). -/
theorem test_withFetchWord_at_reset :
    fetchDecode (fresh 0xA123) = .instr (.ldI 0x123) ∧ (fresh 0xA123).pc = 0x200 := by decide

/-- With PC = 0xFFF the word goes to the entry point (log entry 7). -/
theorem test_withFetchWord_pc_unfetchable :
    fetchDecode ((State.reset.setPc 0xFFF).withFetchWord 16 0x00E0) = .instr .cls := by decide

/-! ### Display -/

/-- TV1. -/
theorem test_cls :
    litInRow (after (light [(0, 0), (10, 5)] (fresh 0x00E0))) 0 = [] ∧ result (fresh 0x00E0) = some (.ok true false) :=
  by decide +kernel

/-- TV19: Y is read from VF before the flag overwrites it. -/
theorem test_drw_coordinates_from_vf :
    let s := (poke 0x100 0x80 (light [(8, 3)] (withRegs 0xD0F1 [(0, 8), (0xF, 3)]))).setI 0x100
    litInRow (after s) 3 = [] ∧ (after s).getV 0xF = 1 := by decide +kernel

/-- TV9. -/
theorem test_drw_clip :
    let s := after (withRegs 0xD015 [(0, 0x3E), (1, 0x1E)])
    litInRow s 30 = [62, 63] ∧ litInRow s 31 = [62] ∧ litInRow s 0 = [] ∧ s.getV 0xF = 0 := by decide +kernel

/-- TV10, the policy WRAP. -/
theorem test_drawSprite_wrap :
    let s := drawSprite glyphTable .wrap 0 1 5 (withRegs 0xD015 [(0, 0x3E), (1, 0x1E)])
    litInRow s 30 = [0, 1, 62, 63] ∧ litInRow s 31 = [1, 62] ∧ litInRow s 2 = [0, 1, 62, 63] := by decide +kernel

/-- TV15, the policy REJECT: target (64,0). -/
theorem test_drawSprite_reject :
    (drawSprite glyphTable .reject 0 1 1 ((poke 0x100 0x0F (withRegs 0xD011 [(0, 0x3C)])).setI 0x100)).eng =
      .faulted (.outOfBoundsAccess 0x200 (some 0xD011) (.display 64 0)) := by decide +kernel

/-! ### Control transfer -/

/-- TC1. -/
theorem test_ret :
    let s := atSp 1 { fresh 0x00EE with stack := (fresh 0x00EE).stack.set 0 0x204 }
    (after s).pc = 0x206 ∧ (after s).sp = 0 := by decide

/-- TC2. -/
theorem test_ret_underflow :
    result (fresh 0x00EE) = some (.error (.stackUnderflow 0x200 0x00EE)) := by decide

/-- TC3. -/
theorem test_jp :
    (after (fresh 0x1ABC)).pc = 0xABC := by decide

/-- TC7: the sixteenth entry takes the call's own address. -/
theorem test_call :
    let s := after (atSp 15 (fresh 0x2300))
    s.pc = 0x300 ∧ s.sp = 16 ∧ s.stack[15] = 0x200 := by decide

/-- TC8. -/
theorem test_call_overflow :
    result (atSp 16 (fresh 0x2300)) = some (.error (.stackOverflow 0x200 0x2300)) := by decide

/-- TC11: V0 is added, not V5. -/
theorem test_jpV0 :
    look 0x0 0x5 (after (withRegs 0xB500 [(0x0, 0x1), (0x5, 0x9)])) = (0x1, 0x9, 0x501) := by decide

/-- TC10: the sum is not reduced to 12 bits. -/
theorem test_jpV0_top :
    look 0x0 0x1 (after (withRegs 0xBFFF [(0x0, 0xFF)])) = (0xFF, 0x0, 0x10FE) := by decide

/-- TC12. -/
theorem test_seImm_equal :
    look 0x0 0x1 (after (withRegs 0x3005 [(0x0, 0x5)])) = (0x5, 0x0, 0x204) := by decide

/-- TC13. -/
theorem test_seImm_differs :
    look 0x0 0x1 (after (withRegs 0x3005 [(0x0, 0x4)])) = (0x4, 0x0, 0x202) := by decide

/-- TC16. -/
theorem test_sneImm_differs :
    look 0x2 0x1 (after (withRegs 0x4211 [(0x2, 0x10)])) = (0x10, 0x0, 0x204) := by decide

/-- TC17. -/
theorem test_sneImm_equal :
    look 0x2 0x1 (after (withRegs 0x4210 [(0x2, 0x10)])) = (0x10, 0x0, 0x202) := by decide

/-- TC18. -/
theorem test_seReg_equal :
    look 0x1 0x2 (after (withRegs 0x5120 [(0x1, 0x7), (0x2, 0x7)])) = (0x7, 0x7, 0x204) := by decide

/-- TC19. -/
theorem test_seReg_differs :
    look 0x1 0x2 (after (withRegs 0x5120 [(0x1, 0x7), (0x2, 0x8)])) = (0x7, 0x8, 0x202) := by decide

/-- TC21. -/
theorem test_sneReg_differs :
    look 0x1 0x2 (after (withRegs 0x9120 [(0x1, 0x7), (0x2, 0x8)])) = (0x7, 0x8, 0x204) := by decide

/-- TC22. -/
theorem test_sneReg_equal :
    look 0x1 0x2 (after (withRegs 0x9120 [(0x1, 0x7), (0x2, 0x7)])) = (0x7, 0x7, 0x202) := by decide

/-! ### Registers and arithmetic (register pairs are the destination and VF) -/

/-- TA1. -/
theorem test_ldImm :
    look 0xA 0xF (after (withRegs 0x6A05 [])) = (0x5, 0x0, 0x202) := by decide

/-- TA3: wraps, VF stays. -/
theorem test_addImm :
    look 0x0 0xF (after (withRegs 0x7001 [(0x0, 0xFF), (0xF, 0x7)])) = (0x0, 0x7, 0x202) := by decide

/-- TA6. -/
theorem test_ldReg :
    look 0x0 0xF (after (withRegs 0x8010 [(0x1, 0x42), (0xF, 0x5)])) = (0x42, 0x5, 0x202) := by decide

/-- TA7. -/
theorem test_orReg :
    look 0x0 0xF (after (withRegs 0x8011 [(0x0, 0xF), (0x1, 0xF0), (0xF, 0x5)])) = (0xFF, 0x5, 0x202) := by decide

/-- TA8. -/
theorem test_andReg :
    look 0x0 0xF (after (withRegs 0x8012 [(0x0, 0x3C), (0x1, 0xF), (0xF, 0x5)])) = (0xC, 0x5, 0x202) := by decide

/-- TA9. -/
theorem test_xorReg :
    look 0x0 0xF (after (withRegs 0x8013 [(0x0, 0x3C), (0x1, 0xF), (0xF, 0x5)])) = (0x33, 0x5, 0x202) := by decide

/-- TA11. -/
theorem test_addReg :
    look 0x0 0xF (after (withRegs 0x8014 [(0x0, 0xFA), (0x1, 0xA)])) = (0x4, 0x1, 0x202) := by decide

/-- TA16: VF takes the carry, the sum is lost. -/
theorem test_addReg_into_vf :
    look 0xF 0x1 (after (withRegs 0x8F14 [(0xF, 0x10), (0x1, 0xF5)])) = (0x1, 0xF5, 0x202) := by decide

/-- TA20. -/
theorem test_subReg :
    look 0x0 0xF (after (withRegs 0x8015 [(0x0, 0x3), (0x1, 0xA), (0xF, 0x1)])) = (0xF9, 0x0, 0x202) := by decide

/-- TA23, AS_LISTED. -/
theorem test_subReg_into_vf :
    look 0xF 0x1 (after (withRegs 0x8F15 [(0xF, 0x5), (0x1, 0x3)])) = (0xFE, 0x3, 0x202) := by decide

/-- TA29: V[Y] is not read. -/
theorem test_shr :
    look 0x0 0xF (after (withRegs 0x8016 [(0x0, 0x5), (0x1, 0x33)])) = (0x2, 0x1, 0x202) := by decide

/-- TA33, AS_LISTED. -/
theorem test_shr_vf :
    look 0xF 0x0 (after (withRegs 0x8F06 [(0xF, 0x3)])) = (0x0, 0x0, 0x202) := by decide

/-- TA36. -/
theorem test_subn :
    look 0x0 0xF (after (withRegs 0x8017 [(0x0, 0xA), (0x1, 0x3), (0xF, 0x1)])) = (0xF9, 0x0, 0x202) := by decide

/-- TA40, AS_LISTED. -/
theorem test_subn_from_vf :
    look 0x1 0xF (after (withRegs 0x81F7 [(0x1, 0x3), (0xF, 0x5)])) = (0xFE, 0x1, 0x202) := by decide

/-- TA44: V[Y] is not read. -/
theorem test_shl :
    look 0x0 0xF (after (withRegs 0x801E [(0x0, 0x81), (0x1, 0x33)])) = (0x2, 0x1, 0x202) := by decide

/-- TA47, AS_LISTED. -/
theorem test_shl_vf :
    look 0xF 0x0 (after (withRegs 0x8F0E [(0xF, 0x81)])) = (0x2, 0x0, 0x202) := by decide

/-- TA26, TA28, TA34, TA41, TA48, the order FLAG_LAST. -/
theorem test_flagLast :
    look 1 0xF (subFlagged .flagLast 1 0xF (withRegs 0 [(1, 5), (0xF, 3)])) = (2, 1, 0x200) ∧
      (subFlagged .flagLast 0xF 0xF (withRegs 0 [(0xF, 9)])).getV 0xF = 1 ∧
      (shrFlagged .flagLast 0xF (withRegs 0 [(0xF, 3)])).getV 0xF = 1 ∧
      look 1 0xF (subnFlagged .flagLast 1 0xF (withRegs 0 [(1, 3), (0xF, 5)])) = (2, 1, 0x200) ∧
      (shlFlagged .flagLast 0xF (withRegs 0 [(0xF, 0x81)])).getV 0xF = 1 := by decide

/-- TA50: a random byte AND 00 is 0, whatever the byte (log entry 4). -/
theorem test_rnd_mask_zero :
    (after (withRegs 0xC300 [(3, 0x55)])).getV 3 = 0 := by
  show freeByte 0 &&& 0#8 = 0#8
  exact BitVec.and_zero

/-! ### Index register and memory -/

/-- TI2. -/
theorem test_ldI :
    (after ((fresh 0xA000).setI 0xFFFF)).i = 0x000 := by decide

/-- TI5. -/
theorem test_addI_wraps :
    (after ((withRegs 0xF01E [(0, 2)]).setI 0xFFFF)).i = 0x001 := by decide

/-- TI6: X is w[11:8] (decision D9); VF is an operand and no flag. -/
theorem test_addI_field :
    let s := after ((withRegs 0xFF1E [(0xF, 0x20)]).setI 0x100)
    s.i = 0x120 ∧ s.getV 0xF = 0x20 := by decide

/-- TI9: the whole byte is multiplied. -/
theorem test_ldGlyph :
    (after (withRegs 0xF029 [(0, 0xFF)])).i = 0x4FB := by decide

/-- R59: 80 bytes, the glyphs of 0 and F. -/
theorem test_glyphTable :
    glyphTable.toList.length = 80 ∧ glyphTable.toList.take 5 = [0xF0, 0x90, 0x90, 0x90, 0xF0] ∧
      glyphTable.toList.drop 75 = [0xF0, 0x80, 0xF0, 0x80, 0x80] := by decide

/-- TI10. -/
theorem test_ldBcd :
    let s := after ((withRegs 0xFA33 [(0xA, 0x9C)]).setI 0x300)
    s.mem.readBlock glyphTable 0x300 3 = [1, 5, 6] ∧ s.i = 0x300 := by decide

/-- TI14: nothing is written. -/
theorem test_ldBcd_bound :
    let s := (withRegs 0xF033 [(0, 7)]).setI 0xFFE
    result s = some (.error (.outOfBoundsAccess 0x200 (some 0xF033) (.memory 0x1000))) ∧ (after s).mem = s.mem :=
  by decide

/-- TI20. -/
theorem test_storeRegs :
    let s := after ((withRegs 0xF155 [(0, 0xAB), (1, 0xCD)]).setI 0xFFE)
    s.mem.readBlock glyphTable 0xFFE 2 = [0xAB, 0xCD] ∧ s.i = 0x1000 := by decide

/-- TI19. -/
theorem test_storeRegs_bound :
    result ((withRegs 0xF155 [(0, 0xAB)]).setI 0xFFF) = some (.error (.outOfBoundsAccess 0x200 (some 0xF155) (.memory 0x1000))) :=
  by decide

/-- TI24: the program's own bytes. -/
theorem test_loadRegs :
    let s := after ((fresh 0xF265).setI 0x200)
    (s.getV 0, s.getV 1, s.getV 2, s.i) = (0xF2, 0x65, 0x00, 0x203) := by decide

/-- The fault names I itself where I is out of range (TI15's rule, R53). -/
theorem test_loadRegs_bound :
    result ((fresh 0xF065).setI 0x2000) = some (.error (.outOfBoundsAccess 0x200 (some 0xF065) (.memory 0x2000))) :=
  by decide

/-- A byte equal to the reset contents is not listed (R270). -/
theorem test_memory_canonical :
    (poke 0x000 0xF0 (poke 0x000 0x11 State.reset)).mem = [] ∧ (poke 2 7 (poke 9 8 State.reset)).mem = [(2, 7), (9, 8)] :=
  by decide

/-! ### Keys and timers -/

/-- TK1. -/
theorem test_skp :
    (after (press [7] (withRegs 0xE59E [(5, 7)]))).pc = 0x204 := by decide

/-- TK5. -/
theorem test_skp_out_of_range :
    result (withRegs 0xE59E [(5, 0x10)]) = some (.error (.outOfBoundsAccess 0x200 (some 0xE59E) (.key 0x10))) :=
  by decide

/-- TK4. -/
theorem test_sknp :
    (after (press [7] (withRegs 0xE5A1 [(5, 7)]))).pc = 0x202 := by decide

/-- TK6. -/
theorem test_sknp_out_of_range :
    result (press [0xF] (withRegs 0xE5A1 [(5, 0xFF)])) = some (.error (.outOfBoundsAccess 0x200 (some 0xE5A1) (.key 0xFF))) :=
  by decide

/-- TK7: read, then ticked. -/
theorem test_ldFromDelay :
    let s := after ((fresh 0xF407).setDelay 4)
    s.getV 4 = 4 ∧ s.delay = 3 := by decide

/-- TK11. -/
theorem test_ldDelay :
    (after (withRegs 0xF315 [(3, 0xFF)])).delay = 254 := by decide

/-- TK12: set to 1, ticked to 0, beep. -/
theorem test_ldSound :
    result (withRegs 0xF018 [(0, 1)]) = some (.ok false true) ∧ (after (withRegs 0xF018 [(0, 1)])).sound = 0 :=
  by decide

/-- TK14: sound goes to 0 by assignment, no beep. -/
theorem test_ldSound_zero :
    result ((withRegs 0xF018 [(0, 0)]).setSound 1) = some (.ok false false) := by decide

/-- TK20: no tick while waiting. -/
theorem test_ldKey_waits :
    let s := after ((fresh 0xF30A).setDelay 5)
    s.eng = .awaitingKey 3 ∧ s.pc = 0x200 ∧ s.delay = 5 := by decide

/-- TK18. -/
theorem test_ldKey_lowest :
    (after (press [9, 2, 0xC] (fresh 0xF30A))).getV 3 = 2 := by decide

/-- TK21. -/
theorem test_wait_resolves :
    let s := (((press [4] (fresh 0xF30A)).setEng (.awaitingKey 3)).setDelay 2).setSound 1
    look 3 0 (after s) = (4, 0, 0x202) ∧ (after s).delay = 1 ∧ result s = some (.ok false true) := by decide

/-! ### Host interface -/

/-- R231 (decision D7). -/
theorem test_error_codes :
    FatalError.code (.unknownOpcode 0 0) = 1 ∧ FatalError.code (.stackOverflow 0 0) = 2 ∧ FatalError.code (.stackUnderflow 0 0) = 3 ∧
      FatalError.code (.outOfBoundsAccess 0 none (.memory 0)) = 4 ∧ programTooLargeCode = 5 := by decide

/-- P1's first bytes, loaded after reset; R60, R272. -/
theorem test_load_and_run :
    (match loadProgram glyphTable [0x60, 0x05] State.reset with
      | .loaded s => look 0 1 (after s)
      | .programTooLarge _ => (0, 0, 0)) = (5, 0, 0x202) := by decide

/-- TH1. -/
theorem test_setKey_refused :
    act (.setKey 16 true) (.live State.reset true) = none := by decide

/-- TH5. -/
theorem test_load_twice :
    act (.loadProgram [0x12]) (.live State.reset false) = none := by decide

/-- TS7, TS8. -/
theorem test_reset_idempotent :
    restart (restart (fresh 0x00EE)) = State.reset := by decide

/-! ### Witnesses: states and operands that meet the hypotheses of each statement, one for each clause -/

/-- `Fetches` on a state that lists its word. -/
theorem fetches_of {s : State} {i : Instr} (he : s.eng = .running) (hp : s.pc.toNat + 1 ≤ 0xFFF)
    (hw : decode (BitVec.ofNat 16 (wordAtPc s)) = .instr i) : Fetches s i := ⟨he, hp, hw⟩

/-- The opcode map selects no instruction for a word the decoder rejects in a concrete case. -/
theorem no_map_0000 (i : Instr) : ¬ OpcodeMap 0x0000 i := by cases i <;> simp [OpcodeMap]

theorem no_map_5121 (i : Instr) : ¬ OpcodeMap 0x5121 i := by cases i <;> simp [OpcodeMap]

theorem witness_StepRunsDecodedInstruction :
    Fetches (fresh 0x6A05) (.ldImm 0xA 0x05) ∧ (done (.ldImm 0xA 0x05) (fresh 0x6A05)).eng = .running ∧
    Fetches (fresh 0x00EE) .ret ∧ (done .ret (fresh 0x00EE)).eng ≠ .running :=
  ⟨fetches_of rfl (by decide) (by decide), rfl, fetches_of rfl (by decide) (by decide), by decide⟩

theorem witness_FetchBeyondMemoryFaults :
    (State.reset.setPc 0xFFF).eng = .running ∧ 0xFFF < (State.reset.setPc 0xFFF).pc.toNat + 1 ∧
    0xFFF < (State.reset.setPc 0xFFFF).pc.toNat + 1 := by decide

theorem witness_UnknownOpcodeFaults :
    ∃ s : State, s.eng = .running ∧ s.pc.toNat + 1 ≤ 0xFFF ∧ ∀ i, ¬ OpcodeMap (wordAtPc s) i :=
  ⟨fresh 0x5121, rfl, by decide, fun i => no_map_5121 i⟩

theorem witness_UnknownOpcodeFaults_at_end :
    ∃ s : State, s.eng = .running ∧ s.pc.toNat + 1 = 0xFFF ∧ ∀ i, ¬ OpcodeMap (wordAtPc s) i :=
  ⟨State.reset.setPc 0xFFE, rfl, rfl, fun i => no_map_0000 i⟩

theorem witness_FaultedLeftOnlyByReset :
    ∃ (s t : State) (e : FatalError) (a : HostAction) (o o' : Bool) (r : HostAnswer),
      s.eng = .faulted e ∧ a ≠ .reset ∧ act a (.live s o) = some (.live t o', r) :=
  ⟨after (fresh 0x00EE), setKey 7 true (after (fresh 0x00EE)), _, .setKey 7 true, true, true, .done, rfl, by decide, rfl⟩

theorem witness_WaitingStepRechecksKeys :
    ∃ s : State, s.eng = .awaitingKey 0xF ∧ ∀ k, s.pressed k = false :=
  ⟨State.reset.setEng (.awaitingKey 0xF), rfl, by decide⟩

theorem witness_WaitingStepRechecksKeys_pressed :
    ∃ (s : State) (k : Nibble), s.eng = .awaitingKey 0x0 ∧ s.pressed k = true ∧ ∀ j : Nibble, j.toNat < k.toNat → s.pressed j = false :=
  ⟨press [0xF] (State.reset.setEng (.awaitingKey 0x0)), 0xF, rfl, rfl, by decide⟩

theorem witness_FaultingStepCommitsNothing :
    transition (fresh 0x00EE) = .next (after (fresh 0x00EE), .error (.stackUnderflow 0x200 0x00EE)) ∧ (fresh 0x00EE).eng = .running :=
  ⟨rfl, rfl⟩

theorem witness_RedrawReportsClearAndDraw :
    transition (fresh 0x00E0) = .next (after (fresh 0x00E0), .ok true false) ∧
    transition (fresh 0x6000) = .next (after (fresh 0x6000), .ok false false) := ⟨rfl, rfl⟩

theorem witness_BeepReportsLastSoundTick :
    ∃ (s t : State) (i : Instr) (u : State), transition s = .next (t, .ok false true) ∧ s.eng = .running ∧
      fetchDecode s = .instr i ∧ exec i s = .next u ∧ u.eng = .running ∧ u.sound.toNat = 1 ∧ t.sound.toNat = 0 :=
  ⟨(fresh 0x6000).setSound 1, _, _, _, rfl, rfl, rfl, rfl, rfl, rfl, rfl⟩

theorem witness_BeepReportsLastSoundTick_waiting :
    ∃ (s t : State) (k : Nibble), transition s = .next (t, .ok false true) ∧ s.eng = .awaitingKey 3 ∧
      s.pressed k = true ∧ s.sound.toNat = 1 ∧ t.sound.toNat = 0 :=
  ⟨(press [0] (State.reset.setEng (.awaitingKey 3))).setSound 1, _, 0, rfl, rfl, rfl, rfl, rfl⟩

theorem witness_StepKeepsMemoryCanonical :
    ∃ s t : State, MemoryCanonical s ∧ step s = .next t ∧ t.mem ≠ s.mem :=
  ⟨(withRegs 0xF155 [(0, 0xAB)]).setI 0xFFE, _, by unfold MemoryCanonical; decide, rfl, by decide⟩

theorem witness_StepKeepsEngineAgreement :
    ∃ s t : State, EngineAgreesWithPc s ∧ s.eng = .awaitingKey 3 ∧ step s = .next t :=
  ⟨(fresh 0xF30A).setEng (.awaitingKey 3), _,
    (rfl : fetchDecode ((fresh 0xF30A).setEng (.awaitingKey 3)) = .instr (.ldKey 3)), rfl, rfl⟩

theorem witness_StepKeepsPcBounded :
    ∃ s t : State, EngineAgreesWithPc s ∧ PcBounded s ∧ 0 < s.sp.val ∧ step s = .next t ∧ t.pc = 0x10FE ∧
      s.eng = .running ∧ t.eng = .running :=
  ⟨atSp 16 (withRegs 0xBFFF [(0, 0xFF)]), _, trivial, ⟨by decide, by decide⟩, by decide, rfl, rfl, rfl, rfl⟩

theorem witness_StepKeepsPcBounded_resumed :
    ∃ s t : State, EngineAgreesWithPc s ∧ PcBounded s ∧ step s = .next t ∧ s.eng = .awaitingKey 3 ∧ t.eng = .running :=
  ⟨press [9] ((fresh 0xF30A).setEng (.awaitingKey 3)), _,
    (rfl : fetchDecode (press [9] ((fresh 0xF30A).setEng (.awaitingKey 3))) = .instr (.ldKey 3)), ⟨by decide, by decide⟩, rfl, rfl, rfl⟩

theorem witness_StepKeepsPcBounded_stopped :
    ∃ s t : State, EngineAgreesWithPc s ∧ PcBounded s ∧ step s = .next t ∧ t.eng ≠ .running :=
  ⟨fresh 0x00EE, _, trivial, ⟨by decide, by decide⟩, rfl, by decide⟩

theorem witness_HostActionKeepsSessionSound :
    ∃ (a : HostAction) (h h' : Session) (r : HostAnswer), SessionSound h ∧ act a h = some (h', r) ∧ a = .loadProgram [0x12, 0x00] :=
  ⟨_, .live State.reset true, _, _, ⟨Memory.wf_nil, trivial, ⟨by decide, by decide⟩, fun _ => rfl⟩, rfl, rfl⟩

theorem witness_OversizedLoadChangesNothing :
    3584 < (List.replicate 3585 (0xAA : Byte)).length := by rw [List.length_replicate]; omega

theorem witness_LoadWritesAtProgramBase :
    (List.replicate 3584 (0xAA : Byte)).length ≤ 3584 ∧ 3583 < (List.replicate 3584 (0xAA : Byte)).length :=
  by rw [List.length_replicate]; omega

theorem witness_HostDutiesCloseTheInterface :
    HostAction.step ≠ HostAction.reset ∧ ∃ t, loadProgram glyphTable [0x12, 0x00] State.reset = .loaded t :=
  ⟨by decide, _, rfl⟩

theorem witness_OnlySetKeyAndResetChangeKeys :
    (∃ t, step State.reset = .next t) ∧ (15 : Nat) < 16 ∧
    ∃ (a : HostAction) (s t : State) (o o' : Bool) (r : HostAnswer), a ≠ .reset ∧ (∀ j p, a ≠ .setKey j p) ∧
      act a (.live s o) = some (.live t o', r) ∧ s.pressed 9 = true :=
  ⟨⟨_, rfl⟩, by decide, .loadProgram [0x12, 0x00], press [9] State.reset, _, true, _, _, by decide,
    (fun _ _ h => nomatch h), rfl, by decide⟩

theorem witness_WriteChangesOnlyItsCell :
    (0xFFE : Nat) ≠ 0xFFF := by decide

theorem witness_OnlyStoresWriteMemory_decimal :
    ∃ s t : State, step s = .next t ∧ t.mem.read glyphTable 0xFFF ≠ s.mem.read glyphTable 0xFFF ∧ fetchDecode s = .instr (.ldBcd 0) :=
  ⟨(withRegs 0xF033 [(0, 7)]).setI 0xFFD, _, rfl, by decide, rfl⟩

theorem witness_OnlyStoresWriteMemory_block :
    ∃ s t : State, step s = .next t ∧ t.mem.read glyphTable 0xFFF ≠ s.mem.read glyphTable 0xFFF ∧ fetchDecode s = .instr (.storeRegs 1) :=
  ⟨(withRegs 0xF155 [(1, 7)]).setI 0xFFE, _, rfl, by decide, rfl⟩

theorem witness_NextFetchSeesStoredBytes :
    ∃ s t : State, Fetches s (.storeRegs 1) ∧ s.i.toNat + (1 : Nibble).toNat ≤ 0xFFF ∧ step s = .next t ∧
      s.i.toNat + (0 : Nibble).toNat = t.pc.toNat ∧ s.i.toNat + (1 : Nibble).toNat = t.pc.toNat + 1 ∧ wordAtPc t = 0x6A05 :=
  ⟨(withRegs 0xF155 [(0, 0x6A), (1, 0x05)]).setI 0x202, _, fetches_of rfl (by decide) (by decide), by decide, rfl, by decide, by decide, by decide⟩

theorem witness_NextFetchSeesStoredBytes_decimal :
    ∃ s t : State, Fetches s (.ldBcd 3) ∧ s.i.toNat + 2 ≤ 0xFFF ∧ step s = .next t ∧
      s.i.toNat + 1 = t.pc.toNat ∧ s.i.toNat + 2 = t.pc.toNat + 1 ∧ wordAtPc t = 0x0504 :=
  ⟨(withRegs 0xF333 [(3, 254)]).setI 0x201, _, fetches_of rfl (by decide) (by decide), by decide, rfl, by decide, by decide, by decide⟩

theorem witness_OnlyCallAndReturnMoveTheStack :
    (∃ s t : State, step s = .next t ∧ s.sp.val < t.sp.val ∧ t.stack[(15 : Fin 16)] ≠ s.stack[(15 : Fin 16)]) ∧
    ∃ s t : State, step s = .next t ∧ t.sp.val < s.sp.val ∧ t.stack = s.stack :=
  ⟨⟨atSp 15 (fresh 0x2300), _, rfl, by decide, by decide⟩, ⟨atSp 1 (fresh 0x00EE), _, rfl, by decide, rfl⟩⟩

theorem witness_OnlyListedInstructionsWriteVf :
    (∃ s t : State, step s = .next t ∧ t.getV 0xF ≠ s.getV 0xF ∧ s.eng = .running) ∧
    ∃ s t : State, step s = .next t ∧ t.getV 0xF ≠ s.getV 0xF ∧ s.eng = .awaitingKey 0xF :=
  ⟨⟨fresh 0x6F01, _, rfl, by decide, rfl⟩, ⟨press [5] (State.reset.setEng (.awaitingKey 0xF)), _, rfl, by decide, rfl⟩⟩

theorem witness_OnlyListedInstructionsWriteIndex :
    ∃ s t : State, step s = .next t ∧ t.i ≠ s.i := ⟨fresh 0xA123, _, rfl, by decide⟩

theorem witness_OnlyClearAndDrawWriteDisplay :
    (∃ s t : State, step s = .next t ∧ t.disp.cell 0 ≠ s.disp.cell 0 ∧ fetchDecode s = .instr .cls) ∧
    ∃ s t : State, step s = .next t ∧ t.disp.cell 2047 ≠ s.disp.cell 2047 ∧ fetchDecode s = .instr (.drw 0 1 1) :=
  ⟨⟨light [(0, 0)] (fresh 0x00E0), _, rfl, by decide +kernel, rfl⟩,
    ⟨withRegs 0xD011 [(0, 63), (1, 31)], _, rfl, by decide +kernel, rfl⟩⟩

theorem witness_TimersRiseOnlyWhenSet :
    (∃ s t : State, step s = .next t ∧ s.delay.toNat < t.delay.toNat) ∧ ∃ s t : State, step s = .next t ∧ s.sound.toNat < t.sound.toNat :=
  ⟨⟨withRegs 0xF315 [(3, 5)], _, rfl, by decide⟩, ⟨withRegs 0xF318 [(3, 5)], _, rfl, by decide⟩⟩

theorem witness_ClearDisplayZeroesEveryCell :
    Fetches (fresh 0x00E0) .cls := fetches_of rfl (by decide) (by decide)

theorem witness_DrawFlipsExactlyTheHitCells :
    RowsInMemory 0 (State.reset.setI 0xFFFF) ∧ RowsInMemory 5 (State.reset.setI 0xFFB) ∧
    PolicyAccepts glyphTable .clip 0 1 5 (State.reset.setI 0xFFB) ∧ PolicyAccepts glyphTable .reject 0 1 1 State.reset := by
  refine ⟨.inl rfl, .inr (by decide), (fun h => nomatch h), fun _ r b cx cy hb => ?_⟩
  obtain ⟨hr, hb, _, rfl, rfl⟩ := hb
  have : r < 1 := hr
  have e : num State.reset 0 = 0 ∧ num State.reset 1 = 0 := by decide
  omega

theorem witness_DrawInstructionClips :
    RowsInMemory 5 (State.reset.setI 0xFFB) ∧ ¬ RowsInMemory 5 (State.reset.setI 0xFFC) := by
  refine ⟨.inr (by decide), fun h => ?_⟩
  have : (5 : Nibble).toNat = 0 ∨ (State.reset.setI 0xFFC).i.toNat + (5 : Nibble).toNat ≤ 4096 := h
  revert this
  decide

theorem witness_RejectNamesFirstOffFrameTarget :
    ∃ (s : State) (r b cx cy : Nat), RowsInMemory 1 s ∧ SpriteBit glyphTable 0 1 1 s r b cx cy ∧ ¬ (cx < 64 ∧ cy < 32) ∧
      ∀ r' b' cx' cy', SpriteBit glyphTable 0 1 1 s r' b' cx' cy' → r' < r ∨ (r' = r ∧ b' < b) → cx' < 64 ∧ cy' < 32 := by
  refine ⟨withRegs 0xD011 [(0, 63)], 0, 1, 64, 0, .inr (by decide), ⟨by decide, by decide, by decide, by decide, by decide⟩,
    by decide, fun r' b' cx' cy' h hlt => ?_⟩
  obtain ⟨hr, _, _, rfl, rfl⟩ := h
  have : r' < 1 := hr
  have e : num (withRegs 0xD011 [(0, 63)]) 0 = 63 ∧ num (withRegs 0xD011 [(0, 63)]) 1 = 0 := by decide
  omega

theorem witness_DrawTwiceRestores :
    ∃ s t q : State, RowsInMemory 5 s ∧ exec (.drw 0 1 5) s = .next t ∧ (∀ j, q.disp.cell j = t.disp.cell j) ∧ RowsInMemory 5 q ∧
      ∀ r b cx cy, SpriteBit glyphTable 0 1 5 q r b cx cy ↔ SpriteBit glyphTable 0 1 5 s r b cx cy :=
  ⟨State.reset, _, (State.reset.setDisp (done (.drw 0 1 5) State.reset).disp), .inr (by decide), rfl, fun _ => rfl, .inr (by decide),
    fun _ _ _ _ => Iff.rfl⟩

theorem witness_ReturnPopsAndResumes :
    0 < (atSp 1 State.reset).sp.val ∧ 0 < (atSp 16 State.reset).sp.val ∧ State.reset.sp.val = 0 := by decide

theorem witness_CallPushesItsOwnAddress :
    State.reset.sp.val < 16 ∧ (atSp 15 State.reset).sp.val < 16 ∧ (atSp 16 State.reset).sp.val = 16 := by decide

theorem witness_CallThenReturnResumesAfterCall :
    (atSp 15 State.reset).sp.val < 16 := by decide

theorem witness_SkipsCompare :
    (1 : Nibble) ≠ 0 ∧ (0xF : Nibble) ≠ 0 := by decide

theorem witness_FlagOrdersDifferOnlyOnVf :
    (0xE : Nibble) ≠ 0xF ∧ (0x0 : Nibble) ≠ 0xF := by decide

theorem witness_StoreDecimalDigits :
    (State.reset.setI 0xFFD).i.toNat + 2 ≤ 0xFFF ∧ 0xFFF < (State.reset.setI 0xFFE).i.toNat + 2 := by decide

theorem witness_StoreRegisterBlock :
    (State.reset.setI 0xFF0).i.toNat + (0xF : Nibble).toNat ≤ 0xFFF ∧ 0xFFF < (State.reset.setI 0xFF1).i.toNat + (0xF : Nibble).toNat ∧
    (0xF : Nibble).toNat ≤ (0xF : Nibble).toNat := by decide

theorem witness_LoadRegisterBlock :
    (State.reset.setI 0xFFF).i.toNat + (0 : Nibble).toNat ≤ 0xFFF ∧ 0xFFF < (State.reset.setI 0x1000).i.toNat + (0 : Nibble).toNat ∧
    (0 : Nibble).toNat ≤ (0 : Nibble).toNat := by decide

theorem witness_StoreThenLoadRoundTrips :
    ∃ s t q : State, s.i.toNat + (3 : Nibble).toNat ≤ 0xFFF ∧ exec (.storeRegs 3) s = .next t ∧
      (∀ a, q.mem.read glyphTable a = t.mem.read glyphTable a) ∧ q.i = s.i :=
  ⟨(withRegs 0xF355 [(0, 0x11)]).setI 0x400, _,
    (done (.storeRegs 3) ((withRegs 0xF355 [(0, 0x11)]).setI 0x400)).setI 0x400, by decide, rfl, fun _ => rfl, rfl⟩

theorem witness_KeySkipsReadKey :
    num (State.reset.setV 5 15) 5 < 16 ∧ 15 < num (State.reset.setV 5 16) 5 := by decide

theorem witness_TimerInstructionsReadAndSet :
    Fetches (fresh 0xF407) (.ldFromDelay 4) ∧ Fetches (fresh 0xF315) (.ldDelay 3) ∧ Fetches (fresh 0xF018) (.ldSound 0) :=
  ⟨fetches_of rfl (by decide) (by decide), fetches_of rfl (by decide) (by decide),
    fetches_of rfl (by decide) (by decide)⟩

theorem witness_KeyWaitTakesLowestKeyOrWaits :
    (press [9, 2] State.reset).pressed 2 = true ∧ (∀ j : Nibble, j.toNat < (2 : Nibble).toNat → (press [9, 2] State.reset).pressed j = false) ∧
    ∀ k, State.reset.pressed k = false := by decide

theorem witness_DelayReadAfterSetIsOneLess :
    ∃ s t : State, Fetches s (.ldDelay 3) ∧ 0 < num s 3 ∧ step s = .next t ∧ Fetches t (.ldFromDelay 4) :=
  ⟨poke 0x203 0x07 (poke 0x202 0xF4 (withRegs 0xF315 [(3, 1)])), _, fetches_of rfl (by decide) (by decide), by decide, rfl,
    fetches_of rfl (by decide) (by decide)⟩

end Sys2Proof.Tests
end

section
/-! What an instruction and a step may write, part by part, and that they write nothing else (10_state.md R20 to R30): the
frame that the rules over all steps are read off from. -/

namespace Sys2Proof.Machine

open Sys2Proof.Config Sys2Proof.Claims

variable {i : Instr} {s t u : State} {w : Part → Prop}

/-- The registers an instruction may write: its destination, VF where it sets the flag, V0..VX for a block load. -/
def MayWriteRegister (i : Instr) (r : Nibble) : Prop :=
  match i with
  | .ldImm x _ | .addImm x _ | .rnd x _ | .ldFromDelay x | .ldKey x => r = x
  | .ldReg x _ | .orReg x _ | .andReg x _ | .xorReg x _ => r = x
  | .addReg x _ | .subReg x _ | .shr x _ | .subn x _ | .shl x _ => r = x ∨ r = vF
  | .drw _ _ _ => r = vF
  | .loadRegs x => r.toNat ≤ x.toNat
  | _ => False

/-- The parts the instruction `i`, where it completes at `s`, may write. -/
def MayWrite (i : Instr) (s : State) (p : Part) : Prop :=
  match p with
  | .v r => MayWriteRegister i r
  | .i => MayWriteIndex i
  | .pc => True
  | .stackEntry j => j.val = s.sp.val ∧ ∃ nnn, i = .call nnn
  | .sp => i = .ret ∨ ∃ nnn, i = .call nnn
  | .delay => ∃ x, i = .ldDelay x
  | .sound => ∃ x, i = .ldSound x
  | .cell _ => i = .cls ∨ ∃ x y n, i = .drw x y n
  | .key _ => False
  | .byte a =>
    (∃ x, i = .ldBcd x ∧ s.i.toNat ≤ a ∧ a ≤ s.i.toNat + 2) ∨
    (∃ x : Nibble, i = .storeRegs x ∧ s.i.toNat ≤ a ∧ a ≤ s.i.toNat + x.toNat)
  | .eng => ∃ x, i = .ldKey x
  | .draws => ∃ x nn, i = .rnd x nn

/-! ### Frames of the shared operations -/

/-- A part that differs is one of those the frame names. -/
theorem written_of_changed {p : Part} (h : ChangesOnly w s t) (hp : ¬ Same p s t) : w p :=
  not_imp_comm.1 (h p) hp

theorem changesOnly_flagged {x : Nibble} (order : FlagOrder) (result : State → Byte) (flag : State → Bool) (hx : w (.v x))
    (hf : w (.v vF)) : ChangesOnly w s (writeFlagged order x result flag s) := by
  cases order with
  | asListed => exact ((ChangesOnly.refl s).setV vF _ hf).setV x _ hx
  | flagLast => exact ((ChangesOnly.refl s).setV x _ hx).setV vF _ hf

theorem changesOnly_loadBlock (table : GlyphTable) (base : Nat) {regs : List Nibble} (hw : ∀ r ∈ regs, w (.v r)) :
    ChangesOnly w s (loadBlock table s base regs) :=
  .ofRegisters (loadBlock_eq table s base regs) fun r hr => by
    rw [getV_loadBlock, if_neg fun hm => hr (hw r hm)]

theorem changesOnly_writeBlock (base : Nat) (bytes : List Byte)
    (hw : ∀ a, base ≤ a → a < base + bytes.length → w (.byte a)) :
    ChangesOnly w s (s.setMem (s.mem.writeBlock glyphTable base bytes)) :=
  (ChangesOnly.refl s).setMem _ fun a ha => Memory.read_writeBlock_other _ _ _ a (by
    by_contra hin
    exact ha (hw a (by omega) (by omega)))

theorem changesOnly_tick (hd : w .delay) (hs : w .sound) : ChangesOnly w s (tick s).1 :=
  ((ChangesOnly.refl s).setDelay _ hd).setSound _ hs

theorem changesOnly_setKey (k : Nibble) (pressed : Bool) (hk : w (.key k)) : ChangesOnly w s (setKey k pressed s) := by
  intro p hp
  cases p with
  | key j =>
    have hne : k ≠ j := fun e => hp (e ▸ hk)
    simp [Same, pressed_setKey, hne]
  | _ => rfl

/-! ### The frame of an instruction -/

/-- A completed instruction changes only what it may write. -/
theorem Completed.changesOnly (h : Completed i s u) : ChangesOnly (MayWrite i s) s u := by
  have start := ChangesOnly.refl (w := MayWrite i s) s
  cases i with
  | cls => subst h; exact (start.setDisp _ fun j hj => (hj (.inl rfl)).elim).setPc _ trivial
  | ret =>
    obtain ⟨_, rfl⟩ := h
    intro p hp
    cases p with
    | pc => exact (hp trivial).elim
    | sp => exact (hp (.inl rfl)).elim
    | _ => rfl
  | call nnn =>
    obtain ⟨room, rfl⟩ := h
    intro p hp
    cases p with
    | pc => exact (hp trivial).elim
    | sp => exact (hp (.inr ⟨nnn, rfl⟩)).elim
    | stackEntry j => exact Vector.getElem_set_ne room j.isLt fun e => hp ⟨e.symm, nnn, rfl⟩
    | _ => rfl
  | jp | jpV0 | seImm | sneImm | seReg | sneReg => subst h; exact start.setPc _ trivial
  | skp | sknp => obtain ⟨_, rfl⟩ := h; exact start.setPc _ trivial
  | ldImm x | addImm x | ldReg x | orReg x | andReg x | xorReg x | ldFromDelay x =>
    subst h; exact (start.setV x _ rfl).setPc _ trivial
  | addReg => subst h; exact (changesOnly_flagged .flagLast _ _ (.inl rfl) (.inr rfl)).setPc _ trivial
  | subReg | shr | subn | shl =>
    subst h; exact (changesOnly_flagged flagOrder _ _ (.inl rfl) (.inr rfl)).setPc _ trivial
  | rnd x nn => subst h; exact ((start.setDraws _ ⟨x, nn, rfl⟩).setV x _ rfl).setPc _ trivial
  | drw x y n =>
    obtain ⟨_, _, rfl⟩ := h
    exact ((start.setDisp _ fun j hj => (hj (.inr ⟨x, y, n, rfl⟩)).elim).setV vF _ rfl).setPc _ trivial
  | ldKey x => obtain ⟨_, _, rfl⟩ := h; exact ((start.setV x _ rfl).setPc _ trivial).setEng _ ⟨x, rfl⟩
  | ldDelay x => subst h; exact (start.setDelay _ ⟨x, rfl⟩).setPc _ trivial
  | ldSound x => subst h; exact (start.setSound _ ⟨x, rfl⟩).setPc _ trivial
  | ldI | addI | ldGlyph => subst h; exact (start.setI _ (by simp [MayWrite, MayWriteIndex])).setPc _ trivial
  | ldBcd x =>
    obtain ⟨_, rfl⟩ := h
    refine (changesOnly_writeBlock _ _ fun a ha hb => .inl ⟨x, rfl, ha, ?_⟩).setPc _ trivial
    simp only [decimalDigits, List.length_cons, List.length_nil] at hb
    omega
  | storeRegs x =>
    obtain ⟨_, rfl⟩ := h
    refine ((changesOnly_writeBlock _ _ fun a ha hb => .inr ⟨x, rfl, ha, ?_⟩).setI _
      (by simp [MayWrite, MayWriteIndex])).setPc _ trivial
    rw [List.length_map, length_regsUpTo] at hb
    omega
  | loadRegs x =>
    obtain ⟨_, rfl⟩ := h
    exact ((changesOnly_loadBlock _ _ fun r hr => (mem_regsUpTo x r).1 hr).setI _
      (by simp [MayWrite, MayWriteIndex])).setPc _ trivial

/-! ### The frame of a step -/

/-- The parts a step from `s` may write: the engine state and the timers, what the instruction it executes may write, and what
the resolution of a key wait writes. -/
def StepMayWrite (s : State) (p : Part) : Prop :=
  (p = .eng ∨ p = .delay ∨ p = .sound) ∨
  (s.eng = .running ∧ ∃ i, fetchDecode s = .instr i ∧ MayWrite i s p) ∨
  (∃ x, s.eng = .awaitingKey x ∧ (p = .v x ∨ p = .pc))

/-- Every step changes only what it may write. -/
theorem Stepped.changesOnly {r : StepResult} (h : Stepped s t r) : ChangesOnly (StepMayWrite s) s t := by
  have start := ChangesOnly.refl (w := StepMayWrite s) s
  have timers {u : State} : ChangesOnly (StepMayWrite s) u (tick u).1 :=
    changesOnly_tick (.inl (.inr (.inl rfl))) (.inl (.inr (.inr rfl)))
  cases h with
  | stuck | waiting => exact start
  | raised | blocked => exact start.setEng _ (.inl (.inl rfl))
  | resumed x k eng =>
    have resolved : ChangesOnly (StepMayWrite s) s (completeKeyWait x k s) :=
      ((start.setV x _ (.inr (.inr ⟨x, eng, .inl rfl⟩))).setPc _ (.inr (.inr ⟨x, eng, .inr rfl⟩))).setEng _
        (.inl (.inl rfl))
    exact resolved.trans timers
  | completed i u eng fetched _ done =>
    exact (done.changesOnly.mono fun p hp => .inr (.inl ⟨eng, i, fetched, hp⟩)).trans timers

/-- A part a step changes is one it may write. -/
theorem stepMayWrite_of_changed {p : Part} (h : step s = .next t) (hp : ¬ Same p s t) : StepMayWrite s p := by
  obtain ⟨_, hs⟩ := Stepped.of_step h
  exact written_of_changed hs.changesOnly hp

/-- Only a 00EE that pops and a 2NNN that pushes move SP, by one each. -/
theorem Completed.sp (h : Completed i s u) :
    u.sp = s.sp ∨ (i = .ret ∧ u.sp.val + 1 = s.sp.val) ∨ ((∃ nnn, i = .call nnn) ∧ u.sp.val = s.sp.val + 1) := by
  by_cases hw : MayWrite i s .sp
  · obtain rfl | ⟨nnn, rfl⟩ := hw
    · obtain ⟨hpos, rfl⟩ := h
      exact .inr (.inl ⟨rfl, Nat.sub_add_cancel hpos⟩)
    · obtain ⟨_, rfl⟩ := h
      exact .inr (.inr ⟨⟨nnn, rfl⟩, rfl⟩)
  · exact .inl (h.changesOnly .sp hw)

/-- A step moves SP only by executing 00EE or 2NNN, by one each. -/
theorem Stepped.sp {r : StepResult} (h : Stepped s t r) :
    t.sp = s.sp ∨
    (s.eng = .running ∧ fetchDecode s = .instr .ret ∧ t.sp.val + 1 = s.sp.val) ∨
    (s.eng = .running ∧ (∃ nnn, fetchDecode s = .instr (.call nnn)) ∧ t.sp.val = s.sp.val + 1) := by
  cases h with
  | completed i u eng fetched _ done =>
    obtain same | ⟨rfl, lower⟩ | ⟨⟨nnn, rfl⟩, higher⟩ := done.sp
    · exact .inl same
    · exact .inr (.inl ⟨eng, fetched, lower⟩)
    · exact .inr (.inr ⟨eng, ⟨nnn, fetched⟩, higher⟩)
  | _ => exact .inl rfl

theorem countDown_le (b : Byte) : (countDown b).toNat ≤ b.toNat := by rw [countDown_toNat]; omega

/-- A step leaves each timer no higher, but FX15 `delay` and FX18 `sound`. -/
theorem Stepped.timers_le {r : StepResult} (h : Stepped s t r) :
    ((s.eng = .running ∧ ∃ x, fetchDecode s = .instr (.ldDelay x)) ∨ t.delay.toNat ≤ s.delay.toNat) ∧
    ((s.eng = .running ∧ ∃ x, fetchDecode s = .instr (.ldSound x)) ∨ t.sound.toNat ≤ s.sound.toNat) := by
  cases h with
  | stuck | waiting | raised | blocked => exact ⟨.inr le_rfl, .inr le_rfl⟩
  | resumed => exact ⟨.inr (countDown_le _), .inr (countDown_le _)⟩
  | completed i u eng fetched _ done =>
    constructor
    · exact (em (MayWrite i s .delay)).imp (fun ⟨x, hx⟩ => ⟨eng, x, hx ▸ fetched⟩) fun hw =>
        (countDown_le u.delay).trans_eq (congrArg BitVec.toNat (done.changesOnly .delay hw))
    · exact (em (MayWrite i s .sound)).imp (fun ⟨x, hx⟩ => ⟨eng, x, hx ▸ fetched⟩) fun hw =>
        (countDown_le u.sound).trans_eq (congrArg BitVec.toNat (done.changesOnly .sound hw))

end Sys2Proof.Machine
end

section
/-! The program counter: what a completed instruction leaves in PC and on the stack, without a wrap (10_state.md R23, R24). -/

namespace Sys2Proof.Machine

open Sys2Proof.Claims

variable {i : Instr} {s t u : State}

theorem engineAgreesWithPc_of_running (h : s.eng = .running) : EngineAgreesWithPc s := by
  simp only [EngineAgreesWithPc, h]

/-- An instruction is fetched only from 0xFFE or below. -/
theorem pc_le_of_fetched (h : fetchDecode s = .instr i) : s.pc.toNat ≤ 0xFFE :=
  Nat.le_of_add_le_add_right (fetchDecode_instr.1 h).1

/-- A waiting engine that agrees with PC is at an FX0A it could fetch. -/
theorem pc_le_of_awaiting {x : Nibble} (ha : EngineAgreesWithPc s) (h : s.eng = .awaitingKey x) :
    s.pc.toNat ≤ 0xFFE := by
  simp only [EngineAgreesWithPc, h] at ha
  exact pc_le_of_fetched ha

/-- A small increment of an address a fetch can read does not wrap. -/
theorem pc_add_toNat (hpc : s.pc.toNat ≤ 0xFFE) {k : Nat} (hk : k ≤ 4) :
    (s.pc + BitVec.ofNat 16 k).toNat = s.pc.toNat + k := by
  rw [word_add_toNat]
  exact Nat.mod_eq_of_lt (by omega)

/-- A skip leaves PC exactly 2 or 4 higher. -/
theorem pc_skipIf (hpc : s.pc.toNat ≤ 0xFFE) (c : Bool) :
    (skipIf c s).pc.toNat = s.pc.toNat + 2 ∨ (skipIf c s).pc.toNat = s.pc.toNat + 4 := by
  cases c with
  | false => exact .inl (pc_add_toNat hpc (by decide))
  | true => exact .inr (pc_add_toNat hpc (by decide))

/-- What a completed instruction leaves in PC is its exact target, no sum having wrapped. -/
theorem Completed.exactTarget (h : Completed i s u) (hb : PcBounded s) (hpc : s.pc.toNat ≤ 0xFFE) :
    ExactTarget i s u.pc.toNat := by
  have next : (s.pc + 2).toNat = s.pc.toNat + 2 := pc_add_toNat hpc (by decide)
  cases i with
  | jp nnn => subst h; exact zextAddr_toNat nnn
  | call nnn => obtain ⟨_, rfl⟩ := h; exact zextAddr_toNat nnn
  | jpV0 nnn =>
    subst h
    have := nnn.isLt
    have := (s.getV 0).isLt
    simp only [ExactTarget, num, State.setPc_pc, BitVec.toNat_add, zextAddr_toNat, zextByte_toNat]
    omega
  | ret =>
    obtain ⟨hsp, rfl⟩ := h
    refine ⟨hsp, ?_⟩
    have live := hb.2 ⟨s.sp.val - 1, by omega⟩ (by simp only; omega)
    simp only [Fin.getElem_fin] at live
    exact (word_add_toNat _ 2).trans (Nat.mod_eq_of_lt (by omega))
  | seImm | sneImm | seReg | sneReg => subst h; exact pc_skipIf hpc _
  | skp | sknp => obtain ⟨_, rfl⟩ := h; exact pc_skipIf hpc _
  | drw | ldKey => obtain ⟨_, _, rfl⟩ := h; exact next
  | ldBcd | storeRegs => obtain ⟨_, rfl⟩ := h; exact next
  | loadRegs => obtain ⟨_, rfl⟩ := h; rw [loadBlock_eq]; exact next
  | _ => subst h; exact next

/-- An exact target is at most 0x10FE, which BNNN alone can reach. -/
theorem exactTarget_le {n : Nat} (h : ExactTarget i s n) (hb : PcBounded s) (hpc : s.pc.toNat ≤ 0xFFE) :
    n ≤ 0x10FE := by
  cases i with
  | jp nnn | call nnn => have := nnn.isLt; simp only [ExactTarget] at h; omega
  | jpV0 nnn =>
    have := nnn.isLt
    have := (s.getV 0).isLt
    simp only [ExactTarget, num] at h
    omega
  | ret =>
    obtain ⟨hsp, rfl⟩ := h
    have live := hb.2 ⟨s.sp.val - 1, by omega⟩ (by simp only; omega)
    simp only [Fin.getElem_fin] at live
    omega
  | _ => simp only [ExactTarget] at h; omega

/-- A completed instruction keeps every live stack entry an address a fetch can read: 2NNN pushes its own. -/
theorem Completed.stack_fetchable (h : Completed i s u) (hb : PcBounded s) (hpc : s.pc.toNat ≤ 0xFFE) (j : Fin 16)
    (hj : j.val < u.sp.val) : u.stack[j].toNat ≤ 0xFFE := by
  by_cases hw : MayWrite i s (.stackEntry j)
  · obtain ⟨top, nnn, rfl⟩ := hw
    obtain ⟨_, rfl⟩ := h
    simpa [top] using hpc
  · have kept : u.stack[j] = s.stack[j] := h.changesOnly (.stackEntry j) hw
    rw [kept]
    refine hb.2 j ?_
    obtain same | ⟨-, lower⟩ | ⟨⟨nnn, rfl⟩, higher⟩ := h.sp
    · exact same ▸ hj
    · omega
    · have : j.val ≠ s.sp.val := fun e => hw ⟨e, nnn, rfl⟩
      omega

/-- A completed instruction keeps PC and the stack in bounds. -/
theorem Completed.pcBounded (h : Completed i s u) (hb : PcBounded s) (hpc : s.pc.toNat ≤ 0xFFE) : PcBounded u :=
  ⟨exactTarget_le (h.exactTarget hb hpc) hb hpc, h.stack_fetchable hb hpc⟩

/-- Every step keeps PC and the stack in bounds. -/
theorem Stepped.pcBounded {r : StepResult} (h : Stepped s t r) (ha : EngineAgreesWithPc s) (hb : PcBounded s) :
    PcBounded t := by
  cases h with
  | stuck | waiting | raised | blocked => exact hb
  | resumed x k eng =>
    have hpc := pc_le_of_awaiting ha eng
    have next : (s.pc + 2).toNat = s.pc.toNat + 2 := pc_add_toNat hpc (by decide)
    exact ⟨show (s.pc + 2).toNat ≤ 0x10FE by omega, hb.2⟩
  | completed i u _ fetched _ done => exact done.pcBounded hb (pc_le_of_fetched fetched)

end Sys2Proof.Machine
end

section
/-! A call and a return, each where SP lets it complete (42_control_flow.md R140, R142). -/

namespace Sys2Proof.Machine

theorem exec_call_of_lt (nnn : Addr) {s : State} (h : s.sp.val < 16) :
    exec (.call nnn) s = .next { s with
      stack := s.stack.set s.sp.val s.pc h, sp := ⟨s.sp.val + 1, by omega⟩, pc := zextAddr nnn } := by
  simp only [exec, execCall, push_some.2 ⟨h, rfl⟩]
  rfl

theorem exec_ret_of_pos {s : State} (h : 0 < s.sp.val) :
    exec .ret s = .next { s with
      sp := ⟨s.sp.val - 1, by omega⟩, pc := s.stack[s.sp.val - 1]'(by omega) + 2 } := by
  simp only [exec, execRet, pop_some.2 ⟨h, rfl, rfl⟩]
  rfl

end Sys2Proof.Machine
end

section
/-! The obligations on the state (10_state.md). -/

namespace Sys2Proof.Proofs

open Sys2Proof.Machine Sys2Proof.Claims

/-- Settles O15: a step that starts a wait or raises an error leaves PC and memory alone, and every other step either changes
nothing or ends running. -/
theorem stepKeepsEngineAgreement : Obligations.StepKeepsEngineAgreement := by
  intro s t ha h
  obtain ⟨_, hs⟩ := Stepped.of_step h
  cases hs with
  | stuck | waiting => exact ha
  | resumed => exact engineAgreesWithPc_of_running rfl
  | raised _ _ pc => exact pc
  | blocked x _ fetched => exact (fetchDecode_congr rfl rfl).trans fetched
  | completed _ _ _ _ _ _ running => exact engineAgreesWithPc_of_running running

/-- Settles O16: the bounds are kept by every way a step can go, and only a completed instruction and a resolved wait write
PC. -/
theorem stepKeepsPcBounded : Obligations.StepKeepsPcBounded := by
  intro s t ha hb h
  obtain ⟨_, hs⟩ := Stepped.of_step h
  refine ⟨hs.pcBounded ha hb, ?_⟩
  cases hs with
  | stuck _ eng | waiting _ eng => simp [eng]
  | raised _ eng | blocked _ eng => simp [eng]
  | resumed x k eng =>
    have next : (s.pc + 2).toNat = s.pc.toNat + 2 := pc_add_toNat (pc_le_of_awaiting ha eng) (by decide)
    exact ⟨by simp [eng], fun _ _ _ => next, fun stopped => absurd rfl stopped⟩
  | completed i u eng fetched _ done running =>
    have target := done.exactTarget hb (pc_le_of_fetched fetched)
    exact ⟨fun _ _ => ⟨i, fetched, target⟩, by simp [eng], fun stopped => absurd running stopped⟩

/-- No step changes a key. -/
theorem step_keeps_keys {s t : State} (h : step s = .next t) (k : Nibble) : t.pressed k = s.pressed k := by
  by_contra hk
  simpa [StepMayWrite, MayWrite] using stepMayWrite_of_changed (p := .key k) h hk

/-- No host operation but setKey and reset changes a key. -/
theorem act_keeps_keys {a : HostAction} {s t : State} {o o' : Bool} {r : HostAnswer} (hr : a ≠ .reset)
    (hk : ∀ j p, a ≠ .setKey j p) (h : act a (.live s o) = some (.live t o', r)) (k : Nibble) :
    t.pressed k = s.pressed k := by
  cases a with
  | reset => exact absurd rfl hr
  | setKey j p => exact absurd rfl (hk j p)
  | snapshot => cases h; rfl
  | loadProgram bytes =>
    simp only [act, actLive, loadProgram] at h
    split_ifs at h <;> cases h <;> rfl
  | step =>
    obtain ⟨t', r', ht, _⟩ := transition_stepped s
    simp only [act, actLive, ht] at h
    cases h
    exact step_keeps_keys (by simp only [step, ht, stateOnly]) k

theorem restart_pressed (s : State) (k : Nibble) : (restart s).pressed k = false := by
  simp [restart, State.pressed, State.reset]

/-- Settles O24: a key is in no step's frame, and setKey's frame is its key. -/
theorem onlySetKeyAndResetChangeKeys : Obligations.OnlySetKeyAndResetChangeKeys := by
  refine ⟨fun s t k h => step_keeps_keys h k, fun a s t o o' r k hr hk h => act_keeps_keys hr hk h k, ?_, ?_⟩
  · intro s o k p hk
    exact ⟨_, if_pos hk, by simp [pressed_setKey], changesOnly_setKey _ p rfl⟩
  · exact fun s o => ⟨_, rfl, restart_pressed s⟩

/-- Settles O28: SP by what each way a step can go does to it, the entries by the frame of a step. -/
theorem onlyCallAndReturnMoveTheStack : Obligations.OnlyCallAndReturnMoveTheStack := by
  intro s t h
  refine ⟨fun higher => ?_, fun lower => ?_, fun j hj => ?_⟩
  · obtain ⟨_, hs⟩ := Stepped.of_step h
    obtain same | ⟨_, _, hsp⟩ | ⟨eng, fetched, hsp⟩ := hs.sp
    · exact absurd higher (by simp [same])
    · omega
    · exact ⟨hsp, eng, fetched⟩
  · obtain ⟨_, hs⟩ := Stepped.of_step h
    obtain same | ⟨eng, fetched, hsp⟩ | ⟨_, _, hsp⟩ := hs.sp
    · exact absurd lower (by simp [same])
    · exact ⟨hsp, eng, fetched⟩
    · omega
  · obtain hp | ⟨eng, _, fetched, top, nnn, rfl⟩ | ⟨_, _, hp⟩ := stepMayWrite_of_changed (p := .stackEntry j) h hj
    · simp at hp
    · exact ⟨top, eng, nnn, fetched⟩
    · simp at hp

theorem mayWriteVf_of_mayWriteRegister {i : Instr} (h : MayWriteRegister i 0xF) : MayWriteVf i := by
  cases i with
  | addReg | subReg | shr | subn | shl | drw => trivial
  | loadRegs x =>
    have hx : 15 ≤ x.toNat := h
    exact BitVec.eq_of_toNat_eq (show x.toNat = 15 by omega)
  | ldImm | addImm | rnd | ldReg | orReg | andReg | xorReg | ldFromDelay | ldKey => exact Eq.symm h
  | _ => exact h

/-- Settles O29: VF is in the frame of a listed instruction or of a wait for VF alone. -/
theorem onlyListedInstructionsWriteVf : Obligations.OnlyListedInstructionsWriteVf := by
  intro s t h hv
  obtain hp | ⟨eng, i, fetched, hw⟩ | ⟨x, eng, hp⟩ := stepMayWrite_of_changed (p := .v 0xF) h hv
  · simp at hp
  · exact .inl ⟨eng, i, fetched, mayWriteVf_of_mayWriteRegister hw⟩
  · have : 0xF = x := by simpa using hp
    exact .inr (this ▸ eng)

/-- Settles O30: the frame of a step names I for those five instructions alone. -/
theorem onlyListedInstructionsWriteIndex : Obligations.OnlyListedInstructionsWriteIndex := by
  intro s t h hi
  simpa [StepMayWrite, MayWrite] using stepMayWrite_of_changed (p := .i) h hi

/-- Settles O31: the frame of a step names a cell for those two instructions alone. -/
theorem onlyClearAndDrawWriteDisplay : Obligations.OnlyClearAndDrawWriteDisplay := by
  intro s t j h hj
  obtain hp | ⟨eng, i, fetched, hw⟩ | ⟨_, _, hp⟩ := stepMayWrite_of_changed (p := .cell j) h hj
  · simp at hp
  · refine ⟨eng, ?_⟩
    obtain rfl | ⟨x, y, n, rfl⟩ := hw
    · exact .inl fetched
    · exact .inr ⟨x, y, n, fetched⟩
  · simp at hp

/-- Settles O32: a tick only lowers, and no other instruction has a timer in its frame. -/
theorem timersRiseOnlyWhenSet : Obligations.TimersRiseOnlyWhenSet := by
  intro s t h
  obtain ⟨_, hs⟩ := Stepped.of_step h
  exact ⟨fun rises => hs.timers_le.1.resolve_right rises.not_ge, fun rises => hs.timers_le.2.resolve_right rises.not_ge⟩

/-- Settles O40: the return pops the entry the call pushed, which the lowered SP names again. -/
theorem callThenReturnResumesAfterCall : Obligations.CallThenReturnResumesAfterCall := by
  intro nnn s h
  refine ⟨_, _, exec_call_of_lt nnn h, by simp, exec_ret_of_pos (Nat.succ_pos _), ?_, rfl, ?_⟩
  · simp only [PcAdvances, Nat.add_sub_cancel, Vector.getElem_set_self]
    exact word_add_toNat _ _
  · intro p hp
    cases p with
    | pc => exact absurd (.inl rfl) hp
    | stackEntry j => exact Vector.getElem_set_ne h j.isLt fun e => hp (.inr ⟨j, e.symm, rfl⟩)
    | _ => rfl

end Sys2Proof.Proofs
end

section
/-! What an instruction and a step do to memory, said once: they leave it alone, or write one block within it from I on
(20_memory.md R53, R55). -/

namespace Sys2Proof.Machine

open Sys2Proof.Config

variable {i : Instr} {s t u : State}

/-- Memory is as it was, or one block of bytes, all within the 4096 cells, is written from I on. -/
def StoresAtIndex (s t : State) : Prop :=
  t.mem = s.mem ∨
  ∃ bytes, s.i.toNat + bytes.length ≤ memSize ∧ t.mem = s.mem.writeBlock glyphTable s.i.toNat bytes

/-- A completed instruction writes memory only as one block at I: FX33 its digits, FX55 its registers. -/
theorem Completed.storesAtIndex (h : Completed i s u) : StoresAtIndex s u := by
  cases i with
  | ldBcd x => obtain ⟨fits, rfl⟩ := h; exact .inr ⟨decimalDigits (s.getV x), fits, rfl⟩
  | storeRegs x =>
    obtain ⟨fits, rfl⟩ := h
    exact .inr ⟨(regsUpTo x).map s.getV, by rwa [List.length_map, length_regsUpTo], rfl⟩
  | ret | call | skp | sknp => obtain ⟨_, rfl⟩ := h; exact .inl rfl
  | drw | ldKey => obtain ⟨_, _, rfl⟩ := h; exact .inl rfl
  | loadRegs => obtain ⟨_, rfl⟩ := h; rw [loadBlock_eq]; exact .inl rfl
  | _ => subst h; exact .inl rfl

/-- A step writes memory only where the instruction it completes does. -/
theorem Stepped.storesAtIndex {r : StepResult} (h : Stepped s t r) : StoresAtIndex s t := by
  cases h with
  | completed _ _ _ _ _ done => exact done.storesAtIndex
  | _ => exact .inl rfl

theorem StoresAtIndex.memoryCanonical (h : StoresAtIndex s t) (hm : MemoryCanonical s) : MemoryCanonical t := by
  unfold MemoryCanonical
  obtain same | ⟨bytes, fits, written⟩ := h
  · rwa [same]
  · rw [written]
    exact Memory.wf_writeBlock hm _ bytes fits

end Sys2Proof.Machine
end

section
/-! The fetch as the statements put it, and the step of a fetched instruction from what `exec` answers (40_cycle.md R104,
R107). -/

namespace Sys2Proof.Machine

open Sys2Proof.Config Sys2Proof.Claims

variable {i : Instr} {s u : State}

/-- A step fetches `i` exactly when the engine runs and fetch and decode give `i`. -/
theorem fetches_iff : Fetches s i ↔ s.eng = .running ∧ fetchDecode s = .instr i :=
  and_congr_right fun _ => (fetchDecode_instr.trans (and_congr_left' Nat.succ_le_succ_iff)).symm

/-- A fetch that reaches beyond 0xFFF raises, at the lowest address out of range. -/
theorem fetchDecode_beyond (h : 0xFFF < s.pc.toNat + 1) :
    fetchDecode s = .raised (.outOfBoundsAccess s.pc none (.memory (max s.pc.toNat 0x1000))) := by
  have out : firstOutOfRange s.pc.toNat 2 = some (max s.pc.toNat memSize) :=
    firstOutOfRange_some.2 ⟨by decide, Nat.succ_lt_succ h, rfl⟩
  simp only [fetchDecode, out]

/-- Execution answers a next state, whatever the instruction. -/
theorem exec_answers (i : Instr) (s : State) : ∃ u, exec i s = .next u := by
  obtain ⟨e, hx, _⟩ | ⟨x, _, _, hx⟩ | ⟨u, hx, _⟩ := exec_cases i s
  · exact ⟨_, hx⟩
  · exact ⟨_, hx⟩
  · exact ⟨u, hx⟩

/-- The step of a fetched instruction is what `exec` answers, finished. -/
theorem step_of_exec (hf : Fetches s i) (hx : exec i s = .next u) : step s = .next (finish (redraws i) u).1 := by
  obtain ⟨eng, fetched⟩ := fetches_iff.1 hf
  simp only [step, transition, eng, runInstruction, fetched, hx, stateOnly]

/-- An instruction that leaves the engine running is followed by the tick. -/
theorem step_of_exec_running (hf : Fetches s i) (hx : exec i s = .next u) (hr : u.eng = .running) :
    step s = .next (tick u).1 := by
  rw [step_of_exec hf hx, finish_running hr]

/-- A step that leaves the engine waiting or faulted does not tick. -/
theorem finish_stopped (h : u.eng ≠ .running) (redraw : Bool) : (finish redraw u).1 = u := by
  unfold finish
  split
  next running => exact absurd running h
  next => rfl
  next => rfl

theorem countDown_eq (b : Byte) : countDown b = BitVec.ofNat 8 (b.toNat - 1) := by
  rw [← countDown_toNat, BitVec.ofNat_toNat, BitVec.setWidth_eq]

end Sys2Proof.Machine
end

section
/-! The block stores FX33 and FX55 where they stay in memory, and what the next fetch reads of them (44_index_memory.md R193,
R194; 20_memory.md R63). -/

namespace Sys2Proof.Machine

open Sys2Proof.Config Sys2Proof.Claims

variable {i : Instr} {s t u : State}

theorem exec_ldBcd_of_le (x : Nibble) (h : s.i.toNat + 2 ≤ 0xFFF) :
    exec (.ldBcd x) s =
      .next (advance (s.setMem (s.mem.writeBlock glyphTable s.i.toNat (decimalDigits (s.getV x))))) := by
  have fits : firstOutOfRange s.i.toNat 3 = none := firstOutOfRange_none.2 (.inr (Nat.succ_le_succ h))
  simp only [exec, execLdBcd, fits]

theorem exec_storeRegs_of_le (x : Nibble) (h : s.i.toNat + x.toNat ≤ 0xFFF) :
    exec (.storeRegs x) s =
      .next (advance ((s.setMem (s.mem.writeBlock glyphTable s.i.toNat ((regsUpTo x).map s.getV))).setI
        (indexAfterBlock s x))) := by
  have fits : firstOutOfRange s.i.toNat (x.toNat + 1) = none := firstOutOfRange_none.2 (.inr (Nat.succ_le_succ h))
  simp only [exec, execStoreRegs, fits]

/-- The k-th digit of a byte as FX33 lists them, in numbers. -/
theorem getElem_decimalDigits (s : State) (x : Nibble) (k : Nat) (h : k < (decimalDigits (s.getV x)).length) :
    (decimalDigits (s.getV x))[k].toNat = decimalDigit s x k := by
  have byte := (s.getV x).isLt
  match k, h with
  | 0, _ | 1, _ | 2, _ =>
    exact Nat.mod_eq_of_lt (by omega)

/-- The two bytes of the word at PC are the two bytes memory holds there. -/
theorem nextFetchReads_read (t : State) (a : Nat) : NextFetchReads t a (t.mem.read glyphTable a).toNat := by
  have high := (t.mem.read glyphTable t.pc.toNat).isLt
  have low := (t.mem.read glyphTable (t.pc.toNat + 1)).isLt
  constructor
  · rintro rfl; unfold wordAtPc; omega
  · rintro rfl; unfold wordAtPc; omega

/-- After the step of an instruction that stores a block at I and goes on, the engine runs at PC + 2 and the next fetch reads
the bytes stored there. -/
theorem step_blockStore {bytes : List Byte} (hf : Fetches s i) (hx : exec i s = .next u) (hpc : u.pc = s.pc + 2)
    (heng : u.eng = s.eng) (hmem : u.mem = s.mem.writeBlock glyphTable s.i.toNat bytes) (h : step s = .next t) :
    t.eng = .running ∧ t.pc.toNat = s.pc.toNat + 2 ∧
      ∀ (k : Nat) (hk : k < bytes.length), NextFetchReads t (s.i.toNat + k) bytes[k].toNat := by
  obtain ⟨eng, fetched⟩ := fetches_iff.1 hf
  have running : u.eng = .running := heng.trans eng
  rw [step_of_exec_running hf hx running] at h
  cases h
  refine ⟨running, ?_, fun k hk => ?_⟩
  · rw [← pc_add_toNat (pc_le_of_fetched fetched) (show 2 ≤ 4 by decide)]
    exact congrArg BitVec.toNat hpc
  · rw [← Memory.read_writeBlock_at (table := glyphTable) s.mem s.i.toNat bytes k hk, ← hmem]
    exact nextFetchReads_read _ _

end Sys2Proof.Machine
end

section
/-! The obligations on memory (20_memory.md). -/

namespace Sys2Proof.Proofs

open Sys2Proof.Config Sys2Proof.Machine Sys2Proof.Claims

/-- Settles O14: a step writes memory only as one block within it, and such a write keeps the canonical form. -/
theorem stepKeepsMemoryCanonical : Obligations.StepKeepsMemoryCanonical := by
  intro s t hm h
  obtain ⟨_, hs⟩ := Stepped.of_step h
  exact hs.storesAtIndex.memoryCanonical hm

theorem loadProgram_of_le (table : GlyphTable) {bytes : List Byte} (s : State) (h : bytes.length ≤ maxProgram) :
    loadProgram table bytes s = .loaded (s.setMem (s.mem.writeBlock table programBase bytes)) :=
  if_neg h.not_gt

/-- Settles O22: the load is one block write at 0x200, whose frame is bytes alone. -/
theorem loadWritesAtProgramBase : Obligations.LoadWritesAtProgramBase := by
  intro table bytes s h
  refine ⟨_, loadProgram_of_le table s h, fun k hk => ?_, fun a ha => ?_, ?_⟩
  · exact Memory.read_writeBlock_at _ _ _ k hk
  · exact Memory.read_writeBlock_other _ _ _ a ha
  · exact (ChangesOnly.refl s).setMem _ fun a unwritten => absurd ⟨a, rfl⟩ unwritten

/-- Settles O27: both stores are block stores at I, whose bytes the next fetch reads where they fall on its word. -/
theorem nextFetchSeesStoredBytes : Obligations.NextFetchSeesStoredBytes := by
  constructor
  · intro s t x hf fits h
    obtain ⟨eng, pc, reads⟩ := step_blockStore hf (exec_storeRegs_of_le x fits) rfl rfl rfl h
    refine ⟨eng, pc, fun r hr => ?_⟩
    have listed : r.toNat < (regsUpTo x).length := by rw [length_regsUpTo]; omega
    have read := reads r.toNat (by rwa [List.length_map])
    rwa [List.getElem_map, getElem_regsUpTo_self x r listed] at read
  · intro s t x hf fits h
    obtain ⟨eng, pc, reads⟩ := step_blockStore hf (exec_ldBcd_of_le x fits) rfl rfl rfl h
    refine ⟨eng, pc, fun k hk => ?_⟩
    have listed : k < (decimalDigits (s.getV x)).length := Nat.lt_succ_of_le hk
    exact getElem_decimalDigits s x k listed ▸ reads k listed

/-- Settles O4: a fetched instruction's step is its `exec`, finished: with the tick where the engine runs on, else as it
is. -/
theorem stepRunsDecodedInstruction : Obligations.StepRunsDecodedInstruction := by
  intro s i hf
  obtain ⟨u, hx⟩ := exec_answers i s
  refine ⟨u, hx, fun running => ?_, fun stopped => ?_⟩
  · rw [step_of_exec_running hf hx running, ← countDown_eq, ← countDown_eq]
    rfl
  · rw [step_of_exec hf hx, finish_stopped stopped]

/-- Settles O5: the fetch raises, and fault entry changes `eng` alone. -/
theorem fetchBeyondMemoryFaults : Obligations.FetchBeyondMemoryFaults := by
  intro s eng beyond
  simp only [transition, eng, runInstruction, fetchDecode_beyond beyond]
  rfl

/-- Settles O25: a read after a write, at its cell and elsewhere, and the write repeated. -/
theorem writeChangesOnlyItsCell : Obligations.WriteChangesOnlyItsCell := fun _ m a b =>
  ⟨Memory.read_write_same m a b, fun _ other => Memory.read_write_other m b other, Memory.write_write m a b⟩

end Sys2Proof.Proofs
end

section
/-! Decoding and encoding are inverse to each other, and the opcode map of R85 is the graph of the encoder (30_encoding.md
R81 to R86). -/

namespace Sys2Proof

open Sys2Proof.Claims

variable {w : Word} {i : Instr}

/-! ### A word is a packed word exactly when its fields, in numbers, are the packed ones -/

theorem packXYN_eq_iff {o x y n : Nibble} : packXYN o x y n = w ↔
    w.toNat / 4096 = o.toNat ∧ x.toNat = w.toNat / 256 % 16 ∧ y.toNat = w.toNat / 16 % 16 ∧ n.toNat = w.toNat % 16 := by
  rw [← BitVec.toNat_inj, toNat_packXYN]
  omega

theorem packXNN_eq_iff {o x : Nibble} {nn : Byte} : packXNN o x nn = w ↔
    w.toNat / 4096 = o.toNat ∧ x.toNat = w.toNat / 256 % 16 ∧ nn.toNat = w.toNat % 256 := by
  rw [← BitVec.toNat_inj, toNat_packXNN]
  omega

theorem packNNN_eq_iff {o : Nibble} {nnn : Addr} : packNNN o nnn = w ↔
    w.toNat / 4096 = o.toNat ∧ nnn.toNat = w.toNat % 4096 := by
  rw [← BitVec.toNat_inj, toNat_packNNN]
  omega

/-- A word is an instruction's exactly when the opcode map selects the instruction for it: format by format (R84). -/
theorem encode_eq_iff : encode i = w ↔ OpcodeMap w.toNat i := by
  cases i with
  | cls | ret => exact eq_comm.trans BitVec.toNat_inj.symm
  | jp | call | ldI | jpV0 => exact packNNN_eq_iff
  | seImm | sneImm | ldImm | addImm | rnd => exact packXNN_eq_iff
  | skp | sknp => exact packXNN_eq_iff
  | ldFromDelay | ldKey | ldDelay | ldSound | addI | ldGlyph | ldBcd | storeRegs | loadRegs => exact packXNN_eq_iff
  | seReg | sneReg | drw => exact packXYN_eq_iff
  | ldReg | orReg | andReg | xorReg | addReg | subReg | shr | subn | shl => exact packXYN_eq_iff

/-- Decoding reads back what encoding packed: the group from the first nibble, the selector and the operands from theirs. -/
theorem decode_encode (i : Instr) : decode (encode i) = .instr i := by
  cases i with
  | cls | ret => rfl
  | jp | call | ldI | jpV0 => simp [encode, decode, fieldO_packNNN, fieldNNN_packNNN]
  | seImm | sneImm | ldImm | addImm | rnd => simp [encode, decode, fieldO_packXNN, fieldX_packXNN, fieldNN_packXNN]
  | skp | sknp => simp [encode, decode, decodeGroupE, fieldO_packXNN, fieldX_packXNN, fieldNN_packXNN]
  | ldFromDelay | ldKey | ldDelay | ldSound | addI | ldGlyph | ldBcd | storeRegs | loadRegs =>
    simp [encode, decode, decodeGroupF, fieldO_packXNN, fieldX_packXNN, fieldNN_packXNN]
  | seReg | sneReg | drw => simp [encode, decode, fieldO_packXYN, fieldX_packXYN, fieldY_packXYN, fieldN_packXYN]
  | ldReg | orReg | andReg | xorReg | addReg | subReg | shr | subn | shl =>
    simp [encode, decode, decodeGroup8, fieldO_packXYN, fieldX_packXYN, fieldY_packXYN, fieldN_packXYN]

theorem decode_eq_instr_iff : decode w = .instr i ↔ encode i = w :=
  ⟨encode_of_decode, fun h => h ▸ decode_encode i⟩

/-- A word is rejected, with itself, exactly when it decodes to no instruction. -/
theorem decode_eq_unknownOpcode_iff {v : Word} :
    decode w = .unknownOpcode v ↔ v = w ∧ ∀ i, decode w ≠ .instr i := by
  constructor
  · intro rejected
    exact ⟨unknownOpcode_of_decode rejected, fun i h => nomatch rejected.symm.trans h⟩
  · rintro ⟨rfl, noInstr⟩
    cases h : decode v with
    | instr i => exact absurd h (noInstr i)
    | unknownOpcode u => rw [unknownOpcode_of_decode h]

end Sys2Proof
end

section
/-! The obligations on the encoding (30_encoding.md). -/

namespace Sys2Proof.Proofs

open Sys2Proof.Claims

/-- Settles O1, case by case of the instruction: the fields of a packed word are the ones packed. -/
theorem decodeInvertsEncode : Obligations.DecodeInvertsEncode :=
  decode_encode

/-- Settles O2: both the decoder and the opcode map give an instruction for its own word alone. -/
theorem decodeFollowsOpcodeMap : Obligations.DecodeFollowsOpcodeMap := by
  have selects (w : Word) (i : Instr) : decode w = .instr i ↔ OpcodeMap w.toNat i :=
    decode_eq_instr_iff.trans encode_eq_iff
  refine ⟨selects, fun w v => decode_eq_unknownOpcode_iff.trans ?_⟩
  exact and_congr_right fun _ => forall_congr' fun i => not_congr (selects w i)

/-- Settles O3: the seven legal words are the encodings of their instructions; the three others match no row. -/
theorem sampleWordsDecode : Obligations.SampleWordsDecode :=
  ⟨decode_encode .cls, decode_encode (.call 0x210), decode_encode (.ldImm 0xA 0x05), decode_encode (.subReg 0x1 0x2),
    decode_encode (.drw 0x1 0x2 0xF), decode_encode (.sknp 0x5), decode_encode (.addI 0x2),
    by decide, by decide, by decide⟩

end Sys2Proof.Proofs
end

section
/-! The step while a key wait is pending, and which steps report a redraw or a beep (40_cycle.md R103, R109, R110). -/

namespace Sys2Proof.Machine

variable {i : Instr} {s t u : State} {x k : Nibble}

/-- A wait with no key pressed is held. -/
theorem transition_of_none_pressed (eng : s.eng = .awaitingKey x) (hk : lowestPressed s = none) :
    transition s = .next (s, .ok false false) := by
  simp only [transition, eng, recheckKeys, hk]

/-- A wait with a key pressed completes with the lowest one, and ticks. -/
theorem transition_of_lowestPressed (eng : s.eng = .awaitingKey x) (hk : lowestPressed s = some k) :
    transition s = .next ((tick (completeKeyWait x k s)).1, .ok false (decide (s.sound.toNat = 1))) := by
  have finished := finish_running (t := completeKeyWait x k s) rfl false
  simp only [transition, eng, recheckKeys, hk, finished]
  rfl

/-- A step that starts in a key wait changes only the wait's register, PC, the engine and the timers. -/
theorem Stepped.changesOnly_of_awaiting {r : StepResult} (h : Stepped s t r) (eng : s.eng = .awaitingKey x) :
    ChangesOnly (fun p => p = .v x ∨ p = .pc ∨ p = .eng ∨ p = .delay ∨ p = .sound) s t := by
  refine h.changesOnly.mono fun p hp => ?_
  obtain anyStep | ⟨running, _⟩ | ⟨y, waiting, hp⟩ := hp
  · exact .inr (.inr anyStep)
  · simp [eng] at running
  · obtain rfl : x = y := Engine.awaitingKey.inj (eng.symm.trans waiting)
    exact hp.imp_right .inl

theorem redraws_iff : redraws i = true ↔ i = .cls ∨ ∃ x y n, i = .drw x y n := by
  cases i <;> simp [redraws]

/-- FX0A with no key pressed begins to wait. -/
theorem exec_ldKey_of_none_pressed (x : Nibble) (hk : lowestPressed s = none) :
    exec (.ldKey x) s = .next (s.setEng (.awaitingKey x)) := by
  simp only [exec, execLdKey, hk]

/-- A tick of sound at 1 takes it to 0. -/
theorem tick_sound_of_eq_one (h : s.sound.toNat = 1) : (tick s).1.sound.toNat = 0 := by
  rw [tick_state, State.setSound_sound, countDown_toNat, h]

end Sys2Proof.Machine
end

section
/-! The obligations on the cycle (40_cycle.md). -/

namespace Sys2Proof.Proofs

open Sys2Proof.Machine Sys2Proof.Claims

/-- Settles O8: the re-check either finds no key and holds the wait, or completes FX0A with the lowest key and ticks. -/
theorem waitingStepRechecksKeys : Obligations.WaitingStepRechecksKeys := by
  intro s x eng
  refine ⟨fun unpressed => transition_of_none_pressed eng (lowestPressed_none.2 unpressed), fun k pressed lower => ?_⟩
  have lowest : lowestPressed s = some k := lowestPressed_some.2 ⟨pressed, lower⟩
  refine ⟨_, transition_of_lowestPressed eng lowest, (Stepped.resumed x k eng lowest).changesOnly_of_awaiting eng, ?_,
    word_add_toNat _ _, rfl, countDown_toNat _, countDown_toNat _⟩
  simp only [num, tick_state, completeKeyWait_eq, State.setSound_getV, State.setDelay_getV, State.setEng_getV,
    State.setPc_getV, State.getV_setV_same]
  exact BitVec.toNat_setWidth_of_le (by decide)

/-- Settles O9: every way a step can go has a next state and a result. -/
theorem everyStepAnswers : Obligations.EveryStepAnswers := by
  intro s
  obtain ⟨t, r, h, _⟩ := transition_stepped s
  exact ⟨t, r, h, by simp only [step, h, stateOnly]⟩

/-- Settles O10: only a step already faulted and one that raises report an error, and fault entry changes `eng` alone. -/
theorem faultingStepCommitsNothing : Obligations.FaultingStepCommitsNothing := by
  intro s t e h
  cases Stepped.of_transition h with
  | stuck _ eng => exact ⟨by rw [← eng], by simp [eng]⟩
  | raised _ _ pc => exact ⟨rfl, fun _ => pc⟩

/-- Settles O12: a completed instruction reports what `redraws` says of it; no other step executes 00E0 or DXYN to an Ok. -/
theorem redrawReportsClearAndDraw : Obligations.RedrawReportsClearAndDraw := by
  intro s t redraw beep h
  cases Stepped.of_transition h with
  | waiting _ eng | resumed _ _ eng => simp [eng]
  | blocked _ _ fetched => simp [fetched]
  | completed i _ eng fetched => simp [eng, fetched, redraws_iff]

/-- Settles O13: a step ticks where it completes an instruction or resolves a wait, and its beep is that tick's. -/
theorem beepReportsLastSoundTick : Obligations.BeepReportsLastSoundTick := by
  intro s t redraw beep h
  cases Stepped.of_transition h with
  | waiting x eng none_pressed => simp [eng, lowestPressed_none.1 none_pressed]
  | blocked x eng fetched none_pressed =>
    have executed := exec_ldKey_of_none_pressed x none_pressed
    simp [eng, fetched, executed]
  | resumed x k eng lowest =>
    have pressed := (lowestPressed_some.1 lowest).1
    rw [decide_eq_true_iff]
    constructor
    · exact fun sound => .inr ⟨x, k, eng, pressed, sound, tick_sound_of_eq_one sound⟩
    · rintro (⟨running, _⟩ | ⟨_, _, _, _, sound, _⟩)
      · simp [eng] at running
      · exact sound
  | completed i u eng fetched executed _ running =>
    rw [decide_eq_true_iff]
    constructor
    · exact fun sound => .inl ⟨eng, i, u, fetched, executed, running, sound, tick_sound_of_eq_one sound⟩
    · rintro (⟨_, j, v, fetched', executed', _, sound, _⟩ | ⟨_, _, waiting, _⟩)
      · cases fetched.symm.trans fetched'
        cases executed.symm.trans executed'
        exact sound
      · simp [eng] at waiting

end Sys2Proof.Proofs
end

section
/-! A draw in the words of the statements: the sprite's bits, the cells they hit, and what is drawn (41_display.md R121 to
R126). -/

namespace Sys2Proof.Machine

open Sys2Proof.Config Sys2Proof.Claims

variable {table : GlyphTable} {policy : EdgePolicy} {x y n : Nibble} {s : State} {j : CellIx}

/-- The targets of the sprite DXYN draws at `s`, in the order they are checked (R125). -/
def drawTargets (table : GlyphTable) (x y n : Nibble) (s : State) : List (Nat × Nat) :=
  spriteTargets (s.getV x).toNat (s.getV y).toNat (s.mem.readBlock table s.i.toNat n.toNat)

/-- The cells the sprite lands on. -/
def drawCells (table : GlyphTable) (policy : EdgePolicy) (x y n : Nibble) (s : State) : List CellIx :=
  landedCells policy (drawTargets table x y n s)

/-- The targets of a draw are those of the sprite's set bits (R123). -/
theorem mem_drawTargets {p : Nat × Nat} :
    p ∈ drawTargets table x y n s ↔ ∃ r b, SpriteBit table x y n s r b p.1 p.2 := by
  rw [drawTargets, mem_spriteTargets]
  constructor
  · rintro ⟨r, hr, b, hb, set, rfl⟩
    rw [Memory.getElem_readBlock] at set
    rw [Memory.length_readBlock] at hr
    exact ⟨r, b, hr, hb, set, rfl, rfl⟩
  · rintro ⟨r, b, hr, hb, set, hx, hy⟩
    refine ⟨r, by rwa [Memory.length_readBlock], b, hb, ?_, Prod.ext hx hy⟩
    rwa [Memory.getElem_readBlock]

/-- The targets of a draw come rows ascending, then bits ascending (R125). -/
theorem pairwise_drawTargets :
    (drawTargets table x y n s).Pairwise (fun p q => p.2 < q.2 ∨ (p.2 = q.2 ∧ p.1 < q.1)) :=
  pairwise_spriteTargets _ _ _

/-- The policy places a target on a cell exactly when the target falls on that cell (R125). -/
theorem place_onCell_iff {cx cy : Nat} : place policy cx cy = .onCell j ↔ TargetCell policy cx cy j.val := by
  cases policy with
  | clip => exact place_clip
  | wrap => exact place_wrap
  | reject => exact place_reject

/-- The cells a draw lands on are those a set bit hits. -/
theorem mem_drawCells : j ∈ drawCells table policy x y n s ↔ Hits table policy x y n s j := by
  simp only [drawCells, mem_landedCells, mem_drawTargets, place_onCell_iff]
  constructor
  · rintro ⟨⟨cx, cy⟩, ⟨r, b, bit⟩, target⟩
    exact ⟨r, b, cx, cy, bit, target⟩
  · rintro ⟨r, b, cx, cy, bit, target⟩
    exact ⟨(cx, cy), ⟨r, b, bit⟩, target⟩

/-- A draw lands on each of its cells once (R126). -/
theorem nodup_drawCells : (drawCells table policy x y n s).Nodup :=
  nodup_landedCells policy _ _ _ (by have := n.isLt; rw [Memory.length_readBlock]; omega)

/-- A policy that accepts every target of a draw rejects none. -/
theorem firstRejected_of_accepts (accepts : PolicyAccepts table policy x y n s) :
    firstRejected policy (drawTargets table x y n s) = none := by
  by_cases hp : policy = .reject
  · subst hp
    refine firstRejected_none.2 fun p hp => ?_
    obtain ⟨r, b, bit⟩ := mem_drawTargets.1 hp
    exact accepts rfl r b p.1 p.2 bit
  · exact firstRejected_none_of_policy hp _

/-- CLIP accepts every target. -/
theorem policyAccepts_clip : PolicyAccepts table .clip x y n s := nofun

/-- A draw whose rows lie in memory and whose targets the policy accepts flips the cells hit, stores the collision flag and
goes on. -/
theorem drawSprite_of_accepts (rows : RowsInMemory n s) (accepts : PolicyAccepts table policy x y n s) :
    drawSprite table policy x y n s =
      advance ((s.setDisp (composite s.disp (drawCells table policy x y n s)).1).setV vF
        (flagByte (composite s.disp (drawCells table policy x y n s)).2)) :=
  drawSprite_completes rows (firstRejected_of_accepts accepts)

/-- A cell after compositing a draw: flipped exactly where a set bit hits it (R124). -/
theorem cell_composite_of_hits (h : Hits table policy x y n s j) (d : Display) :
    (composite d (drawCells table policy x y n s)).1.cell j = !d.cell j := by
  rw [cell_composite d nodup_drawCells, decide_eq_true (mem_drawCells.2 h), Bool.xor_true]

theorem cell_composite_of_not_hits (h : ¬ Hits table policy x y n s j) (d : Display) :
    (composite d (drawCells table policy x y n s)).1.cell j = d.cell j := by
  rw [cell_composite d nodup_drawCells, decide_eq_false (mt mem_drawCells.1 h), Bool.xor_false]

/-- Compositing a draw raises the collision flag exactly when a cell hit was 1 (R124). -/
theorem flag_composite_iff (d : Display) : (composite d (drawCells table policy x y n s)).2 = true ↔
    ∃ j, Hits table policy x y n s j ∧ d.cell j = true := by
  simp only [flag_composite d nodup_drawCells, List.any_eq_true, mem_drawCells]

/-- A draw that raises nothing draws what the statements say. -/
theorem drawn_drawSprite (rows : RowsInMemory n s) (accepts : PolicyAccepts table policy x y n s) :
    Drawn table policy x y n s (drawSprite table policy x y n s) := by
  rw [drawSprite_of_accepts rows accepts]
  have vf (d : Display) (f : Bool) : num (advance ((s.setDisp d).setV vF (flagByte f))) 0xF = if f then 1 else 0 :=
    (congrArg BitVec.toNat (State.getV_setV_same _ vF _)).trans (flagByte_toNat f)
  refine ⟨?_, rfl, fun j hit => cell_composite_of_hits hit s.disp, fun collision => ?_, fun clear => ?_, word_add_toNat _ 2⟩
  · refine (((ChangesOnly.refl s).setDisp _ fun j unwritten => ?_).setV vF _ (.inr (.inl rfl))).setPc _ (.inl rfl)
    exact cell_composite_of_not_hits (fun hit => unwritten (.inr (.inr ⟨j, rfl, hit⟩))) s.disp
  · rw [vf, if_pos ((flag_composite_iff s.disp).2 collision)]
  · rw [vf, if_neg fun raised => ?_]
    obtain ⟨j, hit, lit⟩ := (flag_composite_iff s.disp).1 raised
    exact Bool.eq_false_iff.1 (clear j hit) lit

/-! ### The word DXYN, and the errors of a draw -/

/-- DXYN draws under this hardware's glyph table and under CLIP. -/
theorem exec_drw (x y n : Nibble) (s : State) :
    exec (.drw x y n) s = .next (drawSprite glyphTable .clip x y n s) := rfl

/-- The word of DXYN, in numbers (R84). -/
theorem encode_drw (x y n : Nibble) :
    encode (.drw x y n) = BitVec.ofNat 16 (0xD000 + x.toNat * 256 + y.toNat * 16 + n.toNat) := by
  have word : (packXYN 0xD x y n).toNat = 0xD000 + x.toNat * 256 + y.toNat * 16 + n.toNat := toNat_packXYN 0xD x y n
  rw [encode, ← word, BitVec.ofNat_toNat, BitVec.setWidth_eq]

/-- The record of an access out of bounds that DXYN makes (R231). -/
theorem outOfBounds_drw (x y n : Nibble) (site : Site) (s : State) :
    outOfBounds (.drw x y n) site s = .outOfBoundsAccess s.pc
      (some (BitVec.ofNat 16 (0xD000 + x.toNat * 256 + y.toNat * 16 + n.toNat))) site := by
  rw [outOfBounds, encode_drw]

/-- A draw with a row outside memory raises the memory error of its word (R122). -/
theorem drawSprite_of_not_rowsInMemory (rows : ¬ RowsInMemory n s) :
    drawSprite table policy x y n s = { s with
      eng := .faulted (memoryError s (0xD000 + x.toNat * 256 + y.toNat * 16 + n.toNat)) } := by
  obtain ⟨rowsRead, beyond⟩ := not_or.1 rows
  rw [drawSprite_outOfMemory (Nat.pos_of_ne_zero rowsRead) (Nat.not_le.1 beyond), outOfBounds_drw]
  rfl

/-- The order of the checks: a target before another is of a row above, or of a bit to the left in the same row. -/
theorem spriteBit_before {r b cx cy r' b' cx' cy' : Nat} (h : SpriteBit table x y n s r b cx cy)
    (h' : SpriteBit table x y n s r' b' cx' cy') (before : cy' < cy ∨ (cy' = cy ∧ cx' < cx)) :
    r' < r ∨ (r' = r ∧ b' < b) := by
  obtain ⟨_, _, _, rfl, rfl⟩ := h
  obtain ⟨_, _, _, rfl, rfl⟩ := h'
  omega

/-- Under REJECT the first target rejected is the first off the frame (R125). -/
theorem firstRejected_drawTargets {r b cx cy : Nat} (bit : SpriteBit table x y n s r b cx cy)
    (off : ¬ (cx < 64 ∧ cy < 32))
    (onFrame : ∀ r' b' cx' cy', SpriteBit table x y n s r' b' cx' cy' → r' < r ∨ (r' = r ∧ b' < b) → cx' < 64 ∧ cy' < 32) :
    firstRejected .reject (drawTargets table x y n s) = some (cx, cy) := by
  obtain ⟨earlier, later, parts⟩ := List.append_of_mem (mem_drawTargets (p := (cx, cy)).2 ⟨r, b, bit⟩)
  refine List.find?_eq_some_iff_append.2 ⟨beq_iff_eq.2 (place_rejected.2 ⟨rfl, off⟩), earlier, later, parts, ?_⟩
  intro p hp
  obtain ⟨r', b', bit'⟩ := mem_drawTargets.1 (parts ▸ List.mem_append_left _ hp)
  have ordered := pairwise_drawTargets (table := table) (x := x) (y := y) (n := n) (s := s)
  rw [parts, List.pairwise_append] at ordered
  obtain ⟨-, -, ordered⟩ := ordered
  have before := spriteBit_before bit bit' (ordered p hp (cx, cy) List.mem_cons_self)
  have kept := onFrame r' b' p.1 p.2 bit' before
  simp [place_rejected, kept]

end Sys2Proof.Machine
end

section
/-! What is drawn, said of the state before and the state after: the flag as an equivalence, and each cell (41_display.md
R124, R127). -/

namespace Sys2Proof.Claims

open Sys2Proof.Config Sys2Proof.Machine

variable {table : GlyphTable} {policy : EdgePolicy} {x y n : Nibble} {s t : State} {j : CellIx}

/-- A draw sets VF to 1 exactly when a cell it hits was 1. -/
theorem Drawn.vf_eq_one_iff (h : Drawn table policy x y n s t) :
    num t 0xF = 1 ↔ ∃ j, Hits table policy x y n s j ∧ s.disp.cell j = true := by
  obtain ⟨-, -, -, raised, lowered, -⟩ := h
  refine ⟨fun one => ?_, raised⟩
  by_contra noHit
  have zero := lowered fun j hit => Bool.eq_false_iff.2 fun lit => noHit ⟨j, hit, lit⟩
  omega

theorem Drawn.cell_of_hits (h : Drawn table policy x y n s t) (hit : Hits table policy x y n s j) :
    t.disp.cell j = !s.disp.cell j := by
  obtain ⟨-, -, flipped, -⟩ := h
  exact flipped j hit

theorem Drawn.cell_of_not_hits (h : Drawn table policy x y n s t) (miss : ¬ Hits table policy x y n s j) :
    t.disp.cell j = s.disp.cell j :=
  h.1 (.cell j) (by rintro (e | e | ⟨k, e, hit⟩) <;> cases e; exact miss hit)

end Sys2Proof.Claims
end

section
/-! The obligations on the display (41_display.md). -/

namespace Sys2Proof.Proofs

open Sys2Proof.Machine Sys2Proof.Claims

/-- Settles O34: the draw composites the cells hit, each once, and they are the cells its set bits fall on. -/
theorem drawFlipsExactlyTheHitCells : Obligations.DrawFlipsExactlyTheHitCells :=
  fun _ _ _ _ _ _ => drawn_drawSprite

/-- Settles O35: CLIP accepts every target, so only a row outside memory raises. -/
theorem drawInstructionClips : Obligations.DrawInstructionClips := by
  intro x y n s
  refine ⟨?_, fun rows => ⟨_, exec_drw x y n s, drawn_drawSprite rows policyAccepts_clip⟩, fun outside => ?_⟩
  · rw [WordOf, ← encode_drw]
    exact decode_encode _
  · rw [Raises, exec_drw, drawSprite_of_not_rowsInMemory outside]

/-- Settles O36: the targets are checked rows ascending, then bits ascending, so the first rejected is the first off the
frame. -/
theorem rejectNamesFirstOffFrameTarget : Obligations.RejectNamesFirstOffFrameTarget := by
  intro table x y n s r b cx cy rows bit off onFrame
  rw [drawSprite_rejected rows (firstRejected_drawTargets bit off onFrame), outOfBounds_drw]
  rfl

/-- Settles O37: both draws hit the same cells, and a cell flipped twice is as it was. -/
theorem drawTwiceRestores : Obligations.DrawTwiceRestores := by
  intro x y n x' y' n' s t q rows drawn shown rows' sameBits
  have first : Drawn glyphTable .clip x y n s t := by
    cases (exec_drw x y n s).symm.trans drawn
    exact drawn_drawSprite rows policyAccepts_clip
  have second := drawn_drawSprite (x := x') (y := y') (table := glyphTable) rows' policyAccepts_clip
  have sameHits (j : CellIx) : Hits glyphTable .clip x' y' n' q j ↔ Hits glyphTable .clip x y n s j := by
    simp only [Hits, sameBits]
  refine ⟨_, exec_drw x' y' n' q, fun j => ?_, first.vf_eq_one_iff, ?_⟩
  · by_cases hit : Hits glyphTable .clip x y n s j
    · rw [second.cell_of_hits ((sameHits j).2 hit), shown, first.cell_of_hits hit, Bool.not_not]
    · rw [second.cell_of_not_hits (mt (sameHits j).1 hit), shown, first.cell_of_not_hits hit]
  · rw [second.vf_eq_one_iff]
    refine exists_congr fun j => ?_
    rw [sameHits]
    refine and_congr_right fun hit => ?_
    rw [shown, first.cell_of_hits hit, Bool.not_eq_true']

/-- Settles O33: the clear writes the blank display and goes on, and its step is one that `redraws`. -/
theorem clearDisplayZeroesEveryCell : Obligations.ClearDisplayZeroesEveryCell := by
  refine ⟨decode_encode .cls, fun s => ⟨_, rfl, ?_, Display.cell_blank, word_add_toNat _ 2⟩, fun s fetches => ?_⟩
  · exact ((ChangesOnly.refl s).setDisp _ fun j unwritten => absurd (.inr ⟨j, rfl⟩) unwritten).setPc _ (.inl rfl)
  · obtain ⟨eng, fetched⟩ := fetches_iff.1 fetches
    exact ⟨_, _, transition_of_exec eng fetched rfl eng⟩

end Sys2Proof.Proofs
end

section
/-! The words of the control transfer family and the outcomes of its instructions: completions that write PC alone, and the
calls and returns that SP does not let complete (42_control_flow.md R140 to R147). -/

namespace Sys2Proof.Machine

open Sys2Proof.Claims

variable {i : Instr} {s : State}

/-! ### Words in numbers (30_encoding.md R84, R85) -/

theorem eq_ofNat_of_toNat_eq {w : Word} {m : Nat} (h : w.toNat = m) : w = BitVec.ofNat 16 m := by
  rw [← h, BitVec.ofNat_toNat, BitVec.setWidth_eq]

/-- The word with an instruction's number is decoded as the instruction. -/
theorem wordOf_of_toNat_encode {m : Nat} (h : (encode i).toNat = m) : WordOf m i := by
  rw [WordOf, ← eq_ofNat_of_toNat_eq h]
  exact decode_encode i

/-- Groups 5 and 9 hold no instruction but at selector 0: the word of any other selector is rejected with itself. -/
theorem unknownOpcode_of_selector_ne_zero {o x y n : Nibble} {m : Nat} (ho : o = 0x5 ∨ o = 0x9) (hn : n ≠ 0)
    (hm : (packXYN o x y n).toNat = m) : decode (BitVec.ofNat 16 m) = .unknownOpcode (BitVec.ofNat 16 m) := by
  rw [← eq_ofNat_of_toNat_eq hm]
  have selector : fieldN (packXYN o x y n) ≠ 0 := (fieldN_packXYN o x y n).symm ▸ hn
  obtain rfl | rfl := ho
  · rw [decode_group5 (fieldO_packXYN ..), if_neg selector]
  · rw [decode_group9 (fieldO_packXYN ..), if_neg selector]

/-! ### Completions that write PC alone -/

theorem completes_setPc {a : Word} {m : Nat} (hx : exec i s = .next (s.setPc a)) (ha : a.toNat = m) :
    Completes i s (fun p => p = .pc) (fun t => t.pc.toNat = m) :=
  ⟨_, hx, (ChangesOnly.refl s).setPc a rfl, ha⟩

/-- A skip goes on by the number its condition selects. -/
theorem completes_skipIf {c : Bool} {k : Nat} (hx : exec i s = .next (skipIf c s)) (hk : (if c then 4 else 2) = k) :
    Completes i s (fun p => p = .pc) (fun t => PcAdvances k s t) := by
  subst hk
  cases c with
  | false => exact completes_setPc hx (word_add_toNat s.pc 2)
  | true => exact completes_setPc hx (word_add_toNat s.pc 4)

theorem completes_skipIf_eq {a b : Byte} (hx : exec i s = .next (skipIf (a == b) s)) :
    Completes i s (fun p => p = .pc) (fun t => PcAdvances (if a.toNat = b.toNat then 4 else 2) s t) :=
  completes_skipIf hx (by simp only [beq_iff_eq, BitVec.toNat_inj])

theorem completes_skipIf_ne {a b : Byte} (hx : exec i s = .next (skipIf (a != b) s)) :
    Completes i s (fun p => p = .pc) (fun t => PcAdvances (if a.toNat = b.toNat then 2 else 4) s t) :=
  completes_skipIf hx (by simp only [bne_iff_ne, ne_eq, ite_not, BitVec.toNat_inj])

/-! ### A full and an empty stack (60_exceptions.md R233, R234) -/

theorem raises_call_of_full (nnn : Addr) (h : s.sp.val = 16) :
    Raises (.call nnn) s (.stackOverflow s.pc (encode (.call nnn))) := by
  simp only [Raises, exec, execCall, push_none.2 h]
  rfl

theorem raises_ret_of_empty (h : s.sp.val = 0) : Raises .ret s (.stackUnderflow s.pc (encode .ret)) := by
  simp only [Raises, exec, execRet, pop_none.2 h]
  rfl

end Sys2Proof.Machine
end

section
/-! The obligations on control transfer (42_control_flow.md). -/

namespace Sys2Proof.Proofs

open Sys2Proof.Machine Sys2Proof.Claims

/-- Settles O38: the return lowers SP and writes PC, and has no entry to pop where SP is 0. -/
theorem returnPopsAndResumes : Obligations.ReturnPopsAndResumes := by
  refine ⟨decode_encode .ret, fun s => ⟨fun h => ?_, raises_ret_of_empty⟩⟩
  refine ⟨_, exec_ret_of_pos h, ?_, rfl, word_add_toNat _ 2⟩
  intro p hp
  cases p with
  | pc => exact absurd (.inl rfl) hp
  | sp => exact absurd (.inr rfl) hp
  | _ => rfl

/-- Settles O39: the call writes the entry at SP, SP and PC, and has no entry to write where SP is 16. -/
theorem callPushesItsOwnAddress : Obligations.CallPushesItsOwnAddress := by
  intro nnn s
  have word : (encode (.call nnn)).toNat = 0x2000 + nnn.toNat := toNat_packNNN 0x2 nnn
  refine ⟨wordOf_of_toNat_encode word, fun h => ?_, fun full => ?_⟩
  · refine ⟨_, exec_call_of_lt nnn h, ?_, Vector.getElem_set_self h, rfl, zextAddr_toNat nnn⟩
    intro p hp
    cases p with
    | pc => exact absurd (.inl rfl) hp
    | sp => exact absurd (.inr (.inl rfl)) hp
    | stackEntry j =>
      exact Vector.getElem_set_ne h j.isLt fun e => hp (.inr (.inr (congrArg Part.stackEntry (Fin.ext e.symm))))
    | _ => rfl
  · rw [← eq_ofNat_of_toNat_eq word]
    exact raises_call_of_full nnn full

/-- Settles O41: both write PC and nothing else, and the sum of BNNN is taken modulo 65536 as every word is. -/
theorem jumpsSetPc : Obligations.JumpsSetPc := by
  intro nnn s
  have sum : (zextAddr nnn + zextByte (s.getV 0)).toNat = (nnn.toNat + num s 0x0) % 65536 := by
    rw [BitVec.toNat_add, zextAddr_toNat, zextByte_toNat, num]
  exact ⟨wordOf_of_toNat_encode (toNat_packNNN 0x1 nnn), completes_setPc rfl (zextAddr_toNat nnn),
    wordOf_of_toNat_encode (toNat_packNNN 0xB nnn), completes_setPc rfl sum⟩

/-- Settles O42: each is a skip on the comparison of two bytes; the illegal neighbours have a selector other than 0. -/
theorem skipsCompare : Obligations.SkipsCompare := by
  refine ⟨fun x nn s => ?_, fun x y s => ?_, fun x y n hn => ?_⟩
  · exact ⟨wordOf_of_toNat_encode (toNat_packXNN 0x3 x nn), completes_skipIf_eq rfl,
      wordOf_of_toNat_encode (toNat_packXNN 0x4 x nn), completes_skipIf_ne rfl⟩
  · exact ⟨wordOf_of_toNat_encode (toNat_packXYN 0x5 x y 0), completes_skipIf_eq rfl,
      wordOf_of_toNat_encode (toNat_packXYN 0x9 x y 0), completes_skipIf_ne rfl⟩
  · exact ⟨unknownOpcode_of_selector_ne_zero (.inl rfl) hn (toNat_packXYN 0x5 x y n),
      unknownOpcode_of_selector_ne_zero (.inr rfl) hn (toNat_packXYN 0x9 x y n)⟩

end Sys2Proof.Proofs
end

section
/-! The register and arithmetic family in the words of the statements: the words of group 8, the frame and PC of a completion
that writes V[x], and what the two orders of a flagged write leave in V[x] and VF (43_register_alu.md R160 to R172). -/

namespace Sys2Proof.Machine

open Sys2Proof.Config Sys2Proof.Claims

variable {i : Instr} {s : State} {x y : Nibble} {result : State → Byte} {flag : State → Bool} {f r : Nat}

/-! ### The words of group 8 (30_encoding.md R84, R85) -/

theorem wordOf_group8 {n : Nibble} {m : Nat} (hi : encode i = packXYN 0x8 x y n) (hm : 0x8000 + n.toNat = m) :
    WordOf (m + x.toNat * 256 + y.toNat * 16) i := by
  refine wordOf_of_toNat_encode ?_
  rw [hi, toNat_packXYN, ← hm, show (0x8 : Nibble).toNat * 4096 = 0x8000 from rfl]
  omega

/-! ### Flags and results in numbers (R167 to R171) -/

theorem flagByte_decide_toNat (p : Prop) [Decidable p] : (flagByte (decide p)).toNat = flagNum p := by
  simp only [flagByte_toNat, flagNum, decide_eq_true_eq]

theorem flagByte_lowBitOut_toNat (a : Byte) : (flagByte (lowBitOut a)).toNat = a.toNat % 2 := by revert a; decide

theorem flagByte_highBitOut_toNat (a : Byte) : (flagByte (highBitOut a)).toNat = a.toNat / 128 := by revert a; decide

theorem byte_sub_toNat (a b : Byte) : (a - b).toNat = (a.toNat + 256 - b.toNat) % 256 := by bv_omega

theorem byte_shiftRight_one_toNat (a : Byte) : (a >>> 1).toNat = a.toNat / 2 := by
  rw [BitVec.toNat_ushiftRight, Nat.shiftRight_one]

theorem byte_shiftLeft_one_toNat (a : Byte) : (a <<< 1).toNat = a.toNat * 2 % 256 := by
  rw [BitVec.toNat_shiftLeft, Nat.shiftLeft_eq]

/-! ### The two orders of a flagged write (R160) -/

/-- What a register reads as once VF has taken a flag. -/
theorem getV_setV_vF_toNat {b : Byte} (hb : b.toNat = f) (y : Nibble) :
    ((s.setV vF b).getV y).toNat = numAfterFlag s f y := by
  rw [State.getV_setV, numAfterFlag]
  by_cases h : y = vF
  · rw [if_pos h.symm, if_pos h, hb]
  · rw [if_neg (Ne.symm h), if_neg h, num]

/-- FLAG_LAST: both numbers are of the registers as they were, and VF holds the flag whatever X is. -/
theorem resultThenFlag_numbers (hf : (flagByte (flag s)).toNat = f) (hr : (result s).toNat = r) :
    ResultThenFlag x f r (resultThenFlag x result flag s) := by
  refine ⟨?_, fun hx => ?_⟩
  · rw [num, getV_resultThenFlag, if_pos rfl, hf]
  · rw [num, getV_resultThenFlag, if_neg (Ne.symm hx), if_pos rfl, hr]

/-- AS_LISTED: V[x] holds the result of the registers after VF took the flag. -/
theorem flagThenResult_numbers (hf : (flagByte (flag s)).toNat = f)
    (hr : ∀ b : Byte, b.toNat = f → (result (s.setV vF b)).toNat = r) :
    FlagThenResult x f r (flagThenResult x result flag s) := by
  refine ⟨?_, fun hx => ?_⟩
  · rw [num, getV_flagThenResult, if_pos rfl, hr _ hf]
  · rw [num, getV_flagThenResult, if_neg hx, if_pos rfl, hf]

theorem State.setV_comm (s : State) (b c : Byte) (h : x ≠ y) : (s.setV x b).setV y c = (s.setV y c).setV x b := by
  have h' : x.toNat ≠ y.toNat := fun e => h (BitVec.eq_of_toNat_eq e)
  simp only [State.setV, Vector.set_comm _ _ h']

/-- Where X is not F and the result does not read VF, the order does not matter. -/
theorem writeFlagged_asListed_eq_flagLast (hx : x ≠ 0xF) (hr : ∀ b, result (s.setV vF b) = result s) :
    writeFlagged .asListed x result flag s = writeFlagged .flagLast x result flag s := by
  rw [writeFlagged, writeFlagged, flagThenResult, resultThenFlag, hr, State.setV_comm s _ _ (Ne.symm hx)]

/-! ### Completions that write a register, and VF where a flag is set -/

/-- What holds wherever V[x] has the byte written holds after the write; PC goes on by 2. -/
theorem completes_setV {b : Byte} {Q : State → Prop} (hx : exec i s = .next (advance (s.setV x b)))
    (hQ : ∀ t : State, t.getV x = b → Q t) :
    Completes i s (fun p => p = .pc ∨ p = .v x) (fun t => Q t ∧ PcAdvances 2 s t) :=
  ⟨_, hx, ((ChangesOnly.refl s).setV x b (.inr rfl)).setPc _ (.inl rfl), hQ _ (State.getV_setV_same s x b),
    word_add_toNat s.pc 2⟩

theorem changesOnly_advance_flagged (order : FlagOrder) : ChangesOnly (fun p => p = .pc ∨ p = .v x ∨ p = .v 0xF) s
    (advance (writeFlagged order x result flag s)) :=
  (changesOnly_flagged order result flag (.inr (.inl rfl)) (.inr (.inr rfl))).setPc _ (.inl rfl)

theorem completes_resultThenFlag (hx : exec i s = .next (advance (resultThenFlag x result flag s)))
    (hf : (flagByte (flag s)).toNat = f) (hr : (result s).toNat = r) :
    Completes i s (fun p => p = .pc ∨ p = .v x ∨ p = .v 0xF) (fun t => ResultThenFlag x f r t ∧ PcAdvances 2 s t) :=
  ⟨_, hx, changesOnly_advance_flagged .flagLast, resultThenFlag_numbers hf hr, word_add_toNat s.pc 2⟩

theorem completes_flagThenResult (hx : exec i s = .next (advance (flagThenResult x result flag s)))
    (hf : (flagByte (flag s)).toNat = f) (hr : ∀ b : Byte, b.toNat = f → (result (s.setV vF b)).toNat = r) :
    Completes i s (fun p => p = .pc ∨ p = .v x ∨ p = .v 0xF) (fun t => FlagThenResult x f r t ∧ PcAdvances 2 s t) :=
  ⟨_, hx, changesOnly_advance_flagged .asListed, flagThenResult_numbers hf hr, word_add_toNat s.pc 2⟩

end Sys2Proof.Machine
end

section
/-! The obligations on the register and arithmetic instructions (43_register_alu.md). -/

namespace Sys2Proof.Proofs

open Sys2Proof.Machine Sys2Proof.Claims

/-- Settles O46: the sum and the carry are of the operands as they were, and VF is written last. -/
theorem addSetsCarry : Obligations.AddSetsCarry := fun _ _ _ =>
  ⟨wordOf_group8 rfl rfl, completes_resultThenFlag rfl (flagByte_decide_toNat _) (BitVec.toNat_add _ _)⟩

/-- Settles O47: the flag is of the operands as they were, the difference of the registers the flag write left. -/
theorem subtractsSetNoBorrow : Obligations.SubtractsSetNoBorrow := by
  intro x y s
  have difference (f : Nat) (a d : Nibble) (b : Byte) (hb : b.toNat = f) :
      ((s.setV vF b).getV a - (s.setV vF b).getV d).toNat = (numAfterFlag s f a + 256 - numAfterFlag s f d) % 256 := by
    rw [byte_sub_toNat, getV_setV_vF_toNat hb, getV_setV_vF_toNat hb]
  exact ⟨wordOf_group8 rfl rfl, completes_flagThenResult rfl (flagByte_decide_toNat _) (difference _ x y),
    wordOf_group8 rfl rfl, completes_flagThenResult rfl (flagByte_decide_toNat _) (difference _ y x)⟩

/-- Settles O48: the flag is the bit out of V[X] as it was, the shift of V[X] as the flag write left it. -/
theorem shiftsSetBitOut : Obligations.ShiftsSetBitOut := by
  intro x y s
  refine ⟨wordOf_group8 rfl rfl, completes_flagThenResult rfl (flagByte_lowBitOut_toNat _) fun b hb => ?_,
    wordOf_group8 rfl rfl, completes_flagThenResult rfl (flagByte_highBitOut_toNat _) fun b hb => ?_⟩
  · rw [byte_shiftRight_one_toNat, getV_setV_vF_toNat hb]
  · rw [byte_shiftLeft_one_toNat, getV_setV_vF_toNat hb]

/-- Settles O49: FLAG_LAST reads the registers as they were, and a flag write changes no operand other than VF. -/
theorem flagOrdersDifferOnlyOnVf : Obligations.FlagOrdersDifferOnlyOnVf := by
  intro x y s
  have unread {z : Nibble} (hz : z ≠ 0xF) (b : Byte) : (s.setV vF b).getV z = s.getV z :=
    State.getV_setV_other s b (Ne.symm hz)
  refine ⟨resultThenFlag_numbers (flagByte_decide_toNat _) (byte_sub_toNat _ _),
    resultThenFlag_numbers (flagByte_decide_toNat _) (byte_sub_toNat _ _),
    resultThenFlag_numbers (flagByte_lowBitOut_toNat _) (byte_shiftRight_one_toNat _),
    resultThenFlag_numbers (flagByte_highBitOut_toNat _) (byte_shiftLeft_one_toNat _),
    fun hx hy => ⟨?_, ?_⟩, fun hx => ⟨?_, ?_⟩⟩
  · exact writeFlagged_asListed_eq_flagLast hx fun b => by rw [unread hx, unread hy]
  · exact writeFlagged_asListed_eq_flagLast hx fun b => by rw [unread hx, unread hy]
  · exact writeFlagged_asListed_eq_flagLast hx fun b => by rw [unread hx]
  · exact writeFlagged_asListed_eq_flagLast hx fun b => by rw [unread hx]

/-- Settles O43: each writes V[X] and PC. -/
theorem loadsSetRegister : Obligations.LoadsSetRegister :=
  ⟨fun x nn _ => ⟨wordOf_of_toNat_encode (toNat_packXNN 0x6 x nn), completes_setV rfl fun _ h => h⟩,
    fun _ _ _ => ⟨wordOf_group8 rfl rfl, completes_setV rfl fun _ h => h⟩⟩

/-- Settles O44: a sum of bytes is taken modulo 256, and the frame leaves VF alone but as the destination. -/
theorem addImmediateWrapsWithoutFlag : Obligations.AddImmediateWrapsWithoutFlag := by
  intro x nn s
  refine ⟨wordOf_of_toNat_encode (toNat_packXNN 0x7 x nn), completes_setV rfl fun t h => ?_⟩
  rw [num, h, BitVec.toNat_add, num]

/-- Settles O45: each bit of the result is the operator's on the bits of the operands. -/
theorem bitwiseInstructionsCombineBits : Obligations.BitwiseInstructionsCombineBits := by
  intro x y s
  refine ⟨wordOf_group8 rfl rfl, completes_setV rfl fun t h k _ => ?_,
    wordOf_group8 rfl rfl, completes_setV rfl fun t h k _ => ?_,
    wordOf_group8 rfl rfl, completes_setV rfl fun t h k _ => ?_⟩
  · rw [h, BitVec.getLsbD_or]
  · rw [h, BitVec.getLsbD_and]
  · rw [h, BitVec.getLsbD_xor]

/-- Settles O50: the draw raises the count, and the byte drawn is masked bit by bit. -/
theorem randomIsMaskedDraw : Obligations.RandomIsMaskedDraw := by
  intro x nn s
  refine ⟨wordOf_of_toNat_encode (toNat_packXNN 0xC x nn), _, rfl, ?_, fun k _ => ?_, rfl, word_add_toNat s.pc 2⟩
  · exact (((ChangesOnly.refl s).setDraws _ (.inr (.inr rfl))).setV x _ (.inr (.inl rfl))).setPc _ (.inl rfl)
  · rw [advance_eq, State.setPc_getV, State.getV_setV_same, BitVec.getLsbD_and]
    rfl

end Sys2Proof.Proofs
end

section
/-! The index and memory family in the words of the statements: the words of group F, the completions that write I alone, and
the block transfers inside and outside memory (44_index_memory.md R190 to R196). -/

namespace Sys2Proof.Machine

open Sys2Proof.Config Sys2Proof.Claims

variable {i : Instr} {s t : State} {x : Nibble}

/-! ### The words of group F (30_encoding.md R84, R85) -/

/-- An instruction of group F has the number its selector and its register give. -/
theorem toNat_encode_groupF {nn : Byte} {m : Nat} (hi : encode i = packXNN 0xF x nn) (hm : 0xF000 + nn.toNat = m) :
    (encode i).toNat = m + x.toNat * 256 := by
  rw [hi, toNat_packXNN, ← hm, show (0xF : Nibble).toNat * 4096 = 0xF000 from rfl]
  omega

/-! ### Completions that write I and PC alone -/

theorem completes_setI {a : Word} {m : Nat} (hx : exec i s = .next (advance (s.setI a))) (ha : a.toNat = m) :
    Completes i s (fun p => p = .pc ∨ p = .i) (fun t => t.i.toNat = m ∧ PcAdvances 2 s t) :=
  ⟨_, hx, ((ChangesOnly.refl s).setI a (.inr rfl)).setPc _ (.inl rfl), ha, word_add_toNat s.pc 2⟩

/-! ### Blocks that stay in memory -/

/-- A read after a register block was stored gives the register of that offset. -/
theorem read_writeBlock_regsUpTo (m : Memory) (s : State) (base : Nat) {r : Nibble} (hr : r.toNat ≤ x.toNat) :
    (m.writeBlock glyphTable base ((regsUpTo x).map s.getV)).read glyphTable (base + r.toNat) = s.getV r := by
  have listed : r.toNat < (regsUpTo x).length := by rw [length_regsUpTo]; omega
  rw [Memory.read_writeBlock_at _ _ _ _ (by rwa [List.length_map]), List.getElem_map, getElem_regsUpTo_self x r listed]

/-- A read after the digits were stored gives the digit of that offset. -/
theorem read_writeBlock_decimalDigits (m : Memory) (s : State) (x : Nibble) (base : Nat) {k : Nat} (hk : k ≤ 2) :
    ((m.writeBlock glyphTable base (decimalDigits (s.getV x))).read glyphTable (base + k)).toNat = decimalDigit s x k := by
  have listed : k < (decimalDigits (s.getV x)).length := Nat.lt_succ_of_le hk
  rw [Memory.read_writeBlock_at _ _ _ k listed, getElem_decimalDigits s x k listed]

theorem exec_loadRegs_of_le (x : Nibble) (h : s.i.toNat + x.toNat ≤ 0xFFF) :
    exec (.loadRegs x) s =
      .next (advance ((loadBlock glyphTable s s.i.toNat (regsUpTo x)).setI (indexAfterBlock s x))) := by
  have fits : firstOutOfRange s.i.toNat (x.toNat + 1) = none := firstOutOfRange_none.2 (.inr (Nat.succ_le_succ h))
  simp only [exec, execLoadRegs, fits]

/-! ### Blocks that reach beyond memory (20_memory.md R53) -/

/-- A block at I that reaches beyond 0xFFF is first out of range at I, or at 0x1000 where I is within memory. -/
theorem firstOutOfRange_beyond {n : Nat} (h : 0xFFF < s.i.toNat + n) :
    firstOutOfRange s.i.toNat (n + 1) = some (max s.i.toNat memSize) :=
  firstOutOfRange_some.2 ⟨n.succ_pos, Nat.succ_lt_succ h, rfl⟩

/-- What raises at the first address out of range of a block at I raises the memory error of its word. -/
theorem raises_memoryError {m : Nat} (word : (encode i).toNat = m)
    (hx : exec i s = .next (raise (outOfBounds i (.memory (max s.i.toNat memSize)) s) s)) :
    Raises i s (memoryError s m) := by
  rw [Raises, hx, outOfBounds, eq_ofNat_of_toNat_eq word]
  rfl

theorem exec_ldBcd_of_beyond (x : Nibble) (h : 0xFFF < s.i.toNat + 2) :
    exec (.ldBcd x) s = .next (raise (outOfBounds (.ldBcd x) (.memory (max s.i.toNat memSize)) s) s) := by
  simp only [exec, execLdBcd, firstOutOfRange_beyond h]

theorem exec_storeRegs_of_beyond (x : Nibble) (h : 0xFFF < s.i.toNat + x.toNat) :
    exec (.storeRegs x) s = .next (raise (outOfBounds (.storeRegs x) (.memory (max s.i.toNat memSize)) s) s) := by
  simp only [exec, execStoreRegs, firstOutOfRange_beyond h]

theorem exec_loadRegs_of_beyond (x : Nibble) (h : 0xFFF < s.i.toNat + x.toNat) :
    exec (.loadRegs x) s = .next (raise (outOfBounds (.loadRegs x) (.memory (max s.i.toNat memSize)) s) s) := by
  simp only [exec, execLoadRegs, firstOutOfRange_beyond h]

/-- Where memory is written only as a block within it, no address beyond it reads differently. -/
theorem StoresAtIndex.read_beyond (h : StoresAtIndex s t) {a : Nat} (ha : memSize ≤ a) :
    t.mem.read glyphTable a = s.mem.read glyphTable a := by
  obtain same | ⟨bytes, fits, written⟩ := h
  · rw [same]
  · rw [written, Memory.read_writeBlock_other _ _ _ a (.inr (fits.trans ha))]

end Sys2Proof.Machine
end

section
/-! The obligations on the index register and memory instructions (44_index_memory.md). -/

namespace Sys2Proof.Proofs

open Sys2Proof.Config Sys2Proof.Machine Sys2Proof.Claims

/-- Settles O26: the frame of a step names a byte for the two stores alone, and their blocks lie within memory. -/
theorem onlyStoresWriteMemory : Obligations.OnlyStoresWriteMemory := by
  intro s t a h changed
  obtain ⟨_, hs⟩ := Stepped.of_step h
  have within : a < memSize := Nat.lt_of_not_le fun beyond => changed (hs.storesAtIndex.read_beyond beyond)
  obtain hp | ⟨eng, i, fetched, hw⟩ | ⟨_, _, hp⟩ := stepMayWrite_of_changed (p := .byte a) h changed
  · simp at hp
  · refine ⟨Nat.le_of_lt_succ within, eng, ?_⟩
    obtain ⟨x, rfl, range⟩ | ⟨x, rfl, range⟩ := hw
    · exact .inl ⟨x, fetched, range⟩
    · exact .inr ⟨x, fetched, range⟩
  · simp at hp

/-- Settles O53: the digits are one block of three bytes at I, checked before it is written. -/
theorem storeDecimalDigits : Obligations.StoreDecimalDigits := by
  intro x s
  have word := toNat_encode_groupF (i := .ldBcd x) (m := 0xF033) rfl rfl
  refine ⟨wordOf_of_toNat_encode word, fun fits => ⟨_, exec_ldBcd_of_le x fits, ?_, ?_⟩, fun beyond => ?_⟩
  · refine (changesOnly_writeBlock _ _ fun a low high => .inr ⟨a - s.i.toNat, ?_, ?_⟩).setPc _ (.inl rfl)
    · exact Nat.le_of_lt_succ (Nat.sub_lt_left_of_lt_add low high)
    · rw [Nat.add_sub_cancel' low]
  · have digit (k : Nat) (hk : k ≤ 2) := read_writeBlock_decimalDigits s.mem s x s.i.toNat hk
    exact ⟨digit 0 (by decide), digit 1 (by decide), digit 2 (by decide), word_add_toNat s.pc 2⟩
  · exact raises_memoryError word (exec_ldBcd_of_beyond x beyond)

/-- Settles O54: the registers are one block of X + 1 bytes at I, checked before it is written. -/
theorem storeRegisterBlock : Obligations.StoreRegisterBlock := by
  intro x s
  have word := toNat_encode_groupF (i := .storeRegs x) (m := 0xF055) rfl rfl
  refine ⟨wordOf_of_toNat_encode word, fun fits => ⟨_, exec_storeRegs_of_le x fits, ?_, fun r hr => ?_,
    indexAfterBlock_toNat s x, word_add_toNat s.pc 2⟩, fun beyond => ?_⟩
  · refine ((changesOnly_writeBlock _ _ fun a low high => .inr (.inr ⟨a - s.i.toNat, ?_, ?_⟩)).setI _
      (.inr (.inl rfl))).setPc _ (.inl rfl)
    · rw [List.length_map, length_regsUpTo] at high
      omega
    · rw [Nat.add_sub_cancel' low]
  · exact read_writeBlock_regsUpTo s.mem s s.i.toNat hr
  · exact raises_memoryError word (exec_storeRegs_of_beyond x beyond)

/-- Settles O55: the load writes the listed registers, each from the byte of its offset, once the whole block is checked. -/
theorem loadRegisterBlock : Obligations.LoadRegisterBlock := by
  intro x s
  have word := toNat_encode_groupF (i := .loadRegs x) (m := 0xF065) rfl rfl
  refine ⟨wordOf_of_toNat_encode word, fun fits => ⟨_, exec_loadRegs_of_le x fits, ?_, fun r hr => ?_,
    indexAfterBlock_toNat s x, ?_⟩, fun beyond => ?_⟩
  · exact ((changesOnly_loadBlock _ _ fun r hr => .inr (.inr ⟨r, (mem_regsUpTo x r).1 hr, rfl⟩)).setI _
      (.inr (.inl rfl))).setPc _ (.inl rfl)
  · exact (getV_loadBlock _ _ _ _ r).trans (if_pos ((mem_regsUpTo x r).2 hr))
  · rw [loadBlock_eq]
    exact word_add_toNat s.pc 2
  · exact raises_memoryError word (exec_loadRegs_of_beyond x beyond)

/-- Settles O56: the load reads at each offset what the store wrote there, and both add X + 1 to the same I. -/
theorem storeThenLoadRoundTrips : Obligations.StoreThenLoadRoundTrips := by
  intro x s t q fits executed sameMemory sameIndex
  obtain ⟨-, stores, -⟩ := storeRegisterBlock x s
  obtain ⟨-, loads, -⟩ := loadRegisterBlock x q
  obtain ⟨t', executed', -, stored, index, -⟩ := stores fits
  obtain ⟨u, hu, -, loaded, index', -⟩ := loads (by rwa [sameIndex])
  cases executed.symm.trans executed'
  refine ⟨u, hu, BitVec.eq_of_toNat_eq ?_, fun r hr => ?_⟩
  · rw [index', index, sameIndex]
  · rw [loaded r hr, sameMemory, sameIndex, stored r hr]

/-- Settles O51: each writes I and PC, and five times a byte is less than 65536. -/
theorem indexIsSet : Obligations.IndexIsSet :=
  ⟨fun nnn _ => ⟨wordOf_of_toNat_encode (toNat_packNNN 0xA nnn), completes_setI rfl (zextAddr_toNat nnn)⟩,
    fun _ _ => ⟨wordOf_of_toNat_encode (toNat_encode_groupF rfl rfl), completes_setI rfl (glyphAddress_toNat _)⟩⟩

/-- Settles O52: a sum of words is taken modulo 65536, and the frame leaves VF alone. -/
theorem addToIndexWraps : Obligations.AddToIndexWraps := by
  intro x s
  have sum : (s.i + zextByte (s.getV x)).toNat = (s.i.toNat + num s x) % 65536 := by
    rw [BitVec.toNat_add, zextByte_toNat, num]
  exact ⟨wordOf_of_toNat_encode (toNat_encode_groupF rfl rfl), completes_setI rfl sum⟩

end Sys2Proof.Proofs
end

section
/-! The key and timer family in the words of the statements: the words of group E, the key skips inside and outside the
keypad, and FX0A with a key pressed (45_input_timers.md R210 to R216). -/

namespace Sys2Proof.Machine

open Sys2Proof.Claims

variable {i : Instr} {s : State} {x k : Nibble} {sought : Bool}

/-- An instruction of group E has the number its selector and its register give (30_encoding.md R84, R85). -/
theorem toNat_encode_groupE {nn : Byte} {m : Nat} (hi : encode i = packXNN 0xE x nn) (hm : 0xE000 + nn.toNat = m) :
    (encode i).toNat = m + x.toNat * 256 := by
  rw [hi, toNat_packXNN, ← hm, show (0xE : Nibble).toNat * 4096 = 0xE000 from rfl]
  omega

/-! ### Key skips (R210 to R212) -/

/-- A register below 16 names the key of its number. -/
theorem pressed_setWidth_getV (h : num s x < 16) : s.pressed ((s.getV x).setWidth 4) = s.key[num s x]'h := by
  have number : ((s.getV x).setWidth 4).toNat = num s x := (BitVec.toNat_setWidth 4 _).trans (Nat.mod_eq_of_lt h)
  simp only [State.pressed, number]

/-- A key skip on a key of the keypad goes on by 4 where the key's state is the one sought, else by 2. -/
theorem completes_skipOnKey {n : Nat} (hx : exec i s = .next (skipOnKey i x sought s)) (h : num s x < 16)
    (hn : (if s.key[num s x]'h = sought then 4 else 2) = n) :
    Completes i s (fun p => p = .pc) (fun t => PcAdvances n s t) := by
  have inside : ¬ 15 < (s.getV x).toNat := Nat.not_lt_of_le (Nat.le_of_lt_succ h)
  rw [skipOnKey, if_neg inside, pressed_setWidth_getV h] at hx
  exact completes_skipIf hx (by simp only [← hn, beq_iff_eq])

/-- A key skip on an index above 15 raises, and its record holds the index. -/
theorem raises_skipOnKey {m : Nat} (hx : exec i s = .next (skipOnKey i x sought s)) (word : (encode i).toNat = m)
    (h : 15 < num s x) :
    Raises i s (.outOfBoundsAccess s.pc (some (BitVec.ofNat 16 m)) (.key (s.getV x))) := by
  have beyond : 15 < (s.getV x).toNat := h
  rwa [skipOnKey, if_pos beyond, outOfBounds, eq_ofNat_of_toNat_eq word] at hx

/-! ### FX0A (R103, R214) -/

/-- FX0A with a key pressed completes with the lowest one. -/
theorem exec_ldKey_of_lowestPressed (x : Nibble) (hk : lowestPressed s = some k) :
    exec (.ldKey x) s = .next (completeKeyWait x k s) := by
  simp only [exec, execLdKey, hk]

/-- A completed key wait leaves the key's number in its register. -/
theorem num_completeKeyWait (x k : Nibble) (s : State) : num (completeKeyWait x k s) x = k.toNat := by
  rw [num, completeKeyWait_eq, State.setEng_getV, State.setPc_getV, State.getV_setV_same]
  exact BitVec.toNat_setWidth_of_le (by decide)

theorem changesOnly_completeKeyWait (x k : Nibble) (s : State) :
    ChangesOnly (fun p => p = .pc ∨ p = .v x ∨ p = .eng) s (completeKeyWait x k s) :=
  (((ChangesOnly.refl s).setV x _ (.inr (.inl rfl))).setPc _ (.inl rfl)).setEng _ (.inr (.inr rfl))

end Sys2Proof.Machine
end

section
/-! The obligations on the key and timer instructions (45_input_timers.md). -/

namespace Sys2Proof.Proofs

open Sys2Proof.Machine Sys2Proof.Claims

/-- Settles O57: both are the key skip, EX9E on a pressed key and EXA1 on one that is not. -/
theorem keySkipsReadKey : Obligations.KeySkipsReadKey := by
  intro x s
  have pressedWord := toNat_encode_groupE (i := .skp x) (m := 0xE09E) rfl rfl
  have unpressedWord := toNat_encode_groupE (i := .sknp x) (m := 0xE0A1) rfl rfl
  refine ⟨wordOf_of_toNat_encode pressedWord, fun h => completes_skipOnKey rfl h rfl, raises_skipOnKey rfl pressedWord,
    wordOf_of_toNat_encode unpressedWord, fun h => completes_skipOnKey rfl h ?_, raises_skipOnKey rfl unpressedWord⟩
  cases s.key[num s x]'h <;> rfl

/-- Settles O58: each writes one byte and PC and leaves the engine running, so the step's tick counts what it left. -/
theorem timerInstructionsReadAndSet : Obligations.TimerInstructionsReadAndSet := by
  intro x s
  refine ⟨wordOf_of_toNat_encode (toNat_encode_groupF rfl rfl), completes_setV rfl fun _ h => h, fun fetches => ?_,
    wordOf_of_toNat_encode (toNat_encode_groupF rfl rfl), ?_, fun fetches => ?_,
    wordOf_of_toNat_encode (toNat_encode_groupF rfl rfl), ?_, fun fetches => ?_⟩
  · exact ⟨_, step_of_exec_running fetches rfl fetches.1, State.getV_setV_same s x s.delay, countDown_toNat s.delay⟩
  · exact ⟨_, rfl, ((ChangesOnly.refl s).setDelay _ (.inr rfl)).setPc _ (.inl rfl), rfl, word_add_toNat s.pc 2⟩
  · exact ⟨_, step_of_exec_running fetches rfl fetches.1, countDown_toNat (s.getV x)⟩
  · exact ⟨_, rfl, ((ChangesOnly.refl s).setSound _ (.inr rfl)).setPc _ (.inl rfl), rfl, word_add_toNat s.pc 2⟩
  · obtain ⟨running, fetched⟩ := fetches_iff.1 fetches
    exact ⟨_, transition_of_exec running fetched rfl running, countDown_toNat (s.getV x)⟩

/-- Settles O59: FX0A completes with the lowest pressed key, and without one it begins the wait. -/
theorem keyWaitTakesLowestKeyOrWaits : Obligations.KeyWaitTakesLowestKeyOrWaits := by
  intro x s
  refine ⟨wordOf_of_toNat_encode (toNat_encode_groupF rfl rfl), fun k pressed lower => ?_, fun unpressed => ?_⟩
  · have lowest : lowestPressed s = some k := lowestPressed_some.2 ⟨pressed, lower⟩
    exact ⟨_, exec_ldKey_of_lowestPressed x lowest, changesOnly_completeKeyWait x k s, num_completeKeyWait x k s,
      word_add_toNat s.pc 2, rfl⟩
  · exact exec_ldKey_of_none_pressed x (lowestPressed_none.2 unpressed)

end Sys2Proof.Proofs
end

section
/-! What a host operation on a live block can do, said once: the answer of each that has a move, and the inversion the rules
over all operations are proved from (60_exceptions.md R236, R247, R248). -/

namespace Sys2Proof.Machine

open Sys2Proof.Config

variable {a : HostAction} {bytes : List Byte} {k : Nat} {s t : State} {o : Bool} {h : Session} {r : HostAnswer}

/-! ### Each operation -/

theorem loadProgram_of_gt (table : GlyphTable) (s : State) (exceeds : maxProgram < bytes.length) :
    loadProgram table bytes s = .programTooLarge bytes.length :=
  if_pos exceeds

theorem act_loadProgram_of_loaded (loads : loadProgram glyphTable bytes s = .loaded t) :
    act (.loadProgram bytes) (.live s true) = some (.live t false, .loaded) := by
  simp only [act, actLive, if_true, loads]

/-- An oversized buffer is refused, and leaves the block as it was and open to another. -/
theorem act_loadProgram_of_gt (s : State) (exceeds : maxProgram < bytes.length) :
    act (.loadProgram bytes) (.live s true) = some (.live s true, .programTooLarge bytes.length) := by
  simp only [act, actLive, if_true, loadProgram_of_gt glyphTable s exceeds]

theorem act_setKey_of_lt (pressed : Bool) (s : State) (o : Bool) (hk : k < 16) :
    act (.setKey k pressed) (.live s o) = some (.live (setKey (BitVec.ofNat 4 k) pressed s) o, .done) :=
  if_pos hk

theorem act_setKey_of_not_lt (pressed : Bool) (s : State) (o : Bool) (hk : ¬ k < 16) :
    act (.setKey k pressed) (.live s o) = none :=
  if_neg hk

/-- A step of the host is the block's, and closes the load. -/
theorem act_step_of_transition {result : StepResult} (o : Bool) (steps : transition s = .next (t, result)) :
    act .step (.live s o) = some (.live t false, .stepped result) := by
  simp only [act, actLive, steps]

theorem step_of_transition {result : StepResult} (steps : transition s = .next (t, result)) : step s = .next t := by
  simp only [step, steps, stateOnly]

theorem length_snapshot (s : State) : (snapshot s).length = 2048 := by
  rw [snapshot, List.length_map, List.length_finRange]

/-- A snapshot lists the cells in order. -/
theorem getElem?_snapshot (s : State) (j : CellIx) : (snapshot s)[j.val]? = some (s.disp.cell j) := by
  simp [snapshot]

/-! ### All operations -/

/-- The moves a host operation has on a live block, each with the session it leaves and its answer. -/
inductive Acted (s : State) (o : Bool) : HostAction → Session → HostAnswer → Prop where
  | restarted : Acted s o .reset (.live (restart s) true) .done
  | loaded (bytes : List Byte) (opened : o = true) (fits : bytes.length ≤ maxProgram) :
      Acted s o (.loadProgram bytes) (.live (s.setMem (s.mem.writeBlock glyphTable programBase bytes)) false) .loaded
  | tooLarge (bytes : List Byte) (opened : o = true) (exceeds : maxProgram < bytes.length) :
      Acted s o (.loadProgram bytes) (.live s true) (.programTooLarge bytes.length)
  | keySet (k : Nat) (pressed : Bool) (key : k < 16) :
      Acted s o (.setKey k pressed) (.live (setKey (BitVec.ofNat 4 k) pressed s) o) .done
  | stepped (t : State) (result : StepResult) (steps : transition s = .next (t, result)) :
      Acted s o .step (.live t false) (.stepped result)
  | observed : Acted s o .snapshot (.live s o) (.cells (snapshot s))

/-- The inversion lemma of a host operation. -/
theorem Acted.of_act (acts : act a (.live s o) = some (h, r)) : Acted s o a h r := by
  cases a with
  | reset => cases acts; exact .restarted
  | snapshot => cases acts; exact .observed
  | step =>
    obtain ⟨t, result, steps, _⟩ := transition_stepped s
    rw [act_step_of_transition o steps] at acts
    cases acts
    exact .stepped t result steps
  | setKey k pressed =>
    by_cases key : k < 16
    · rw [act_setKey_of_lt pressed s o key] at acts
      cases acts
      exact .keySet k pressed key
    · rw [act_setKey_of_not_lt pressed s o key] at acts
      cases acts
  | loadProgram bytes =>
    cases o with
    | false => cases acts
    | true =>
      by_cases exceeds : maxProgram < bytes.length
      · rw [act_loadProgram_of_gt s exceeds] at acts
        cases acts
        exact .tooLarge bytes rfl exceeds
      · have fits := Nat.le_of_not_lt exceeds
        rw [act_loadProgram_of_loaded (Proofs.loadProgram_of_le glyphTable s fits)] at acts
        cases acts
        exact .loaded bytes rfl fits

/-! ### Soundness -/

/-- The block right after a reset meets what every host operation keeps, whatever the draws before it. -/
theorem sessionSound_restart (s : State) : SessionSound (.live (restart s) true) :=
  ⟨Memory.wf_nil, engineAgreesWithPc_of_running rfl,
    ⟨show 0x200 ≤ 0x10FE by decide, fun j live => absurd live (Nat.not_lt_zero j.val)⟩, fun _ => rfl⟩

/-- A program that fits stays within memory, so the load keeps memory canonical. -/
theorem memoryCanonical_load (canonical : MemoryCanonical s) (fits : bytes.length ≤ maxProgram) :
    MemoryCanonical (s.setMem (s.mem.writeBlock glyphTable programBase bytes)) :=
  Memory.wf_writeBlock canonical programBase bytes (Nat.add_le_add_left fits programBase)

end Sys2Proof.Machine
end

section
/-! The word at PC in numbers, an opcode the map leaves out, and a step of a faulted engine (20_memory.md R54,
60_exceptions.md R232, R239). -/

namespace Sys2Proof.Machine

open Sys2Proof.Config Sys2Proof.Claims

variable {s : State} {w : Word} {e : FatalError}

/-- The fetched word has the number its two bytes give. -/
theorem fetchWord_toNat (s : State) : (fetchWord glyphTable s).toNat = wordAtPc s := by
  have high := (s.mem.read glyphTable s.pc.toNat).isLt
  have low := (s.mem.read glyphTable (s.pc.toNat + 1)).isLt
  exact Nat.mod_eq_of_lt (by omega)

/-- A word the opcode map gives to no instruction is rejected with itself. -/
theorem decode_of_unmapped (unmapped : ∀ i, ¬ OpcodeMap w.toNat i) : decode w = .unknownOpcode w :=
  decode_eq_unknownOpcode_iff.2 ⟨rfl, fun i decoded => unmapped i (encode_eq_iff.1 (decode_eq_instr_iff.1 decoded))⟩

/-- The fetch of an unmapped word within memory raises UnknownOpcode with the word. -/
theorem fetchDecode_of_unmapped (within : s.pc.toNat + 1 ≤ 0xFFF) (unmapped : ∀ i, ¬ OpcodeMap (wordAtPc s) i) :
    fetchDecode s = .raised (.unknownOpcode s.pc (BitVec.ofNat 16 (wordAtPc s))) := by
  have inMemory : firstOutOfRange s.pc.toNat 2 = none := firstOutOfRange_none.2 (.inr (Nat.succ_le_succ within))
  have rejected := decode_of_unmapped (w := fetchWord glyphTable s) (by rwa [fetchWord_toNat])
  simp only [fetchDecode, inMemory, rejected, ← eq_ofNat_of_toNat_eq (fetchWord_toNat s)]

theorem transition_of_raised (eng : s.eng = .running) (fetched : fetchDecode s = .raised e) :
    transition s = .next (raise e s, .error e) := by
  simp only [transition, eng, runInstruction, fetched]

theorem transition_of_faulted (eng : s.eng = .faulted e) : transition s = .next (s, .error e) := by
  simp only [transition, eng]

end Sys2Proof.Machine
end

section
/-! The obligations on errors, the tick and the host interface (60_exceptions.md). -/

namespace Sys2Proof.Proofs

open Sys2Proof.Machine Sys2Proof.Claims

/-- Settles O17, by the moves a host operation has: reset establishes every condition, a load and a key change leave the
engine, PC and the stack alone, and a step keeps each condition and closes the load. -/
theorem hostActionKeepsSessionSound : Obligations.HostActionKeepsSessionSound := by
  intro a h h' r sound acts
  cases h with
  | beforeReset =>
    cases a with
    | reset => cases acts; exact sessionSound_restart State.reset
    | _ => cases acts
  | live s o =>
    have ⟨canonical, agrees, bounded, running⟩ := sound
    cases Acted.of_act acts with
    | restarted => exact sessionSound_restart s
    | loaded bytes opened fits =>
      have eng : s.eng = .running := running opened
      exact ⟨memoryCanonical_load canonical fits, engineAgreesWithPc_of_running eng, bounded, fun _ => eng⟩
    | tooLarge _ opened => exact opened ▸ sound
    | keySet => exact ⟨canonical, agrees, bounded, running⟩
    | stepped t _ steps =>
      have next := step_of_transition steps
      exact ⟨stepKeepsMemoryCanonical s t canonical next, stepKeepsEngineAgreement s t agrees next,
        (stepKeepsPcBounded s t agrees bounded next).1, nofun⟩
    | observed => exact sound

/-- Settles O6: the decode of the unmapped word raises, and fault entry changes `eng` alone. -/
theorem unknownOpcodeFaults : Obligations.UnknownOpcodeFaults := fun _ eng within unmapped =>
  transition_of_raised eng (fetchDecode_of_unmapped within unmapped)

/-- Settles O7: of the moves a host operation has, only reset writes `eng` of a faulted engine. -/
theorem faultedLeftOnlyByReset : Obligations.FaultedLeftOnlyByReset := by
  intro s e eng
  have stuck := transition_of_faulted eng
  refine ⟨stuck, step_of_transition stuck, fun a o o' t r notReset acts => ?_, fun o => ⟨restart s, rfl, rfl⟩⟩
  cases Acted.of_act acts with
  | restarted => exact absurd rfl notReset
  | stepped _ _ steps =>
    rw [stuck] at steps
    cases steps
    exact eng
  | loaded | tooLarge | keySet | observed => exact eng

/-- Settles O23, operation by operation. -/
theorem hostDutiesCloseTheInterface : Obligations.HostDutiesCloseTheInterface := by
  refine ⟨fun a notReset => ?_, rfl, fun _ _ => rfl, fun _ _ _ => act_loadProgram_of_loaded, fun s o => ?_,
    fun k p s o => ?_, fun s o => ⟨rfl, length_snapshot s, getElem?_snapshot s⟩⟩
  · cases a with
    | reset => exact absurd rfl notReset
    | _ => rfl
  · obtain ⟨t, r, steps, _⟩ := transition_stepped s
    exact ⟨t, r, act_step_of_transition o steps, steps⟩
  · by_cases key : k < 16
    · simp [act_setKey_of_lt p s o key, Nat.le_of_lt_succ key]
    · simp [act_setKey_of_not_lt p s o key, Nat.lt_of_not_le (mt Nat.lt_succ_of_le key)]

/-- Settles O11: both counts are `countDown`'s, and only the timers are written. -/
theorem tickCountsDownBothTimers : Obligations.TickCountsDownBothTimers := by
  intro s
  refine ⟨countDown_toNat s.delay, countDown_toNat s.sound, ?_, changesOnly_tick (.inl rfl) (.inr rfl)⟩
  rw [tick_beep, decide_eq_true_iff]
  exact ⟨fun last => ⟨last, tick_sound_of_eq_one last⟩, And.left⟩

/-- Settles O21: the length is checked before anything is written. -/
theorem oversizedLoadChangesNothing : Obligations.OversizedLoadChangesNothing := fun _ s exceeds =>
  ⟨fun table => loadProgram_of_gt table s exceeds, act_loadProgram_of_gt s exceeds⟩

end Sys2Proof.Proofs
end

section
/-! What a reset leaves in the vectors of the block, read by their accessors (70_reset_and_hazards.md R270, 10_state.md R20,
R24, R28). -/

namespace Sys2Proof.Machine

theorem restart_getV (s : State) (x : Nibble) : (restart s).getV x = 0 := Vector.getElem_replicate x.isLt

theorem restart_stack (s : State) (j : Fin 16) : (restart s).stack[j] = 0 := Vector.getElem_replicate j.isLt

theorem restart_cell (s : State) (j : CellIx) : (restart s).disp.cell j = false := Display.cell_blank j

/-- Memory after a reset lists no cell, so every address reads its reset contents. -/
theorem restart_read (s : State) (table : Config.GlyphTable) (a : Nat) :
    (restart s).mem.read table a = resetByte table a :=
  Memory.read_nil a

end Sys2Proof.Machine
end

section
/-! The obligations on reset and on the hazard between the delay timer's instructions (70_reset_and_hazards.md). -/

namespace Sys2Proof.Proofs

open Sys2Proof.Machine Sys2Proof.Claims

/-- Settles O60: the tick that ends FX15's step counts the delay down once, and FX07 reads before its own step's tick. -/
theorem delayReadAfterSetIsOneLess : Obligations.DelayReadAfterSetIsOneLess := by
  intro s t x y setsDelay _ steps readsDelay
  obtain ⟨-, -, -, -, -, delayAfterSet, -⟩ := timerInstructionsReadAndSet x s
  obtain ⟨-, -, registerAfterRead, -⟩ := timerInstructionsReadAndSet y t
  obtain ⟨t', steps', delay⟩ := delayAfterSet setsDelay
  obtain ⟨u, next, register, -⟩ := registerAfterRead readsDelay
  obtain rfl : t = t' := Host.Outcome.next.inj (steps.symm.trans steps')
  exact ⟨u, next, (congrArg BitVec.toNat register).trans delay⟩

/-- Settles O18: the reset state is what a reset leaves of itself; its session's soundness gives all but NotFaulted. -/
theorem resetIsSound : Obligations.ResetIsSound := by
  have sound : SessionSound (.live State.reset true) := sessionSound_restart State.reset
  have ⟨canonical, agrees, bounded, _⟩ := sound
  exact ⟨canonical, agrees, bounded, fun _ => nofun, sound⟩

/-- Settles O19, part by part; the scalar parts stand as literals in the reset state. -/
theorem resetValues : Obligations.ResetValues := fun s =>
  ⟨fun table a glyph => (restart_read s table a).trans (resetByte_glyph glyph),
    fun table a beyond => (restart_read s table a).trans (resetByte_zero beyond),
    restart_cell s, rfl, rfl, fun x => congrArg BitVec.toNat (restart_getV s x), rfl, rfl,
    fun j => congrArg BitVec.toNat (restart_stack s j), rfl, rfl, restart_pressed s⟩

/-- Settles O20: a reset is the reset state with the draw count kept, so resetting twice is resetting once. -/
theorem resetReinitialisesEverything : Obligations.ResetReinitialisesEverything := fun s _ =>
  ⟨restart s, rfl, (ChangesOnly.refl State.reset).setDraws s.draws rfl, rfl⟩

end Sys2Proof.Proofs
end
